-- ==== Sys2Proof/Word.lean ====
section
/-! DEFINITION. The two bit vectors of the spec: the byte of a buffer or a byte string, and the 32-bit word of a register
or of the command format. -/

namespace Sys2Proof

/-- A byte: an 8-bit unsigned value (spec/00_scope.md R9). -/
abbrev Byte := BitVec 8

/-- A 32-bit word: a register as the host moves it (spec/10_state.md R37) or a command word (spec/30_encoding.md R80). -/
abbrev Word := BitVec 32

end Sys2Proof
end

