-- ==== Sys2Proof/Machine/Access.lean ====
section
/-! DEFINITION. What the world outside the block can do to it, as data: a host access in the encoding of
spec/30_encoding.md R93 (kind, offset, n, value), with the offset counted from BLOCK_BASE, and the platform's reset
(spec/70_reset_and_hazards.md R200); and what a host read observes. -/

namespace Sys2Proof.Machine

/-- One input of the block. -/
inductive Input where
  /-- `MemRead(BLOCK_BASE + off, n)`, n in bytes (R13, R93). -/
  | read (off n : Nat)
  /-- `MemWrite(BLOCK_BASE + off, n, v)`, n in bytes (R13, R93). -/
  | write (off n v : Nat)
  /-- The platform asserts reset (R200; log entry 18). -/
  | reset
deriving DecidableEq, Repr

/-- The value one host read returned (R210). -/
inductive Observation where
  /-- A register, read as one 32-bit word (R57). -/
  | word (w : Word)
  /-- A buffer byte (R57). -/
  | byte (b : Byte)
deriving DecidableEq, Repr

end Sys2Proof.Machine
end

