-- ==== Sys2Proof/Syntax.lean ====
section
/-! DEFINITION. The six commands of spec/opcode_table.json. No command word carries an operand (spec/30_encoding.md R83). -/

namespace Sys2Proof

/-- The commands of SQPC-1, one constructor per row of the opcode map (spec/30_encoding.md R81). -/
inductive Instr where
  /-- PACK: pack PREFIX_IN into OUT (R112). -/
  | pack
  /-- UNPACK: unpack the leading bytes of IN (R113). -/
  | unpack
  /-- CKGEN: checksum of the message in IN (R133). -/
  | ckgen
  /-- CKCHK: verify the checksum of the frame in IN (R134). -/
  | ckchk
  /-- FENC: build the frame of PREFIX_IN and the payload in IN (R152). -/
  | fenc
  /-- FDEC: validate the frame in IN and extract its payload (R154). -/
  | fdec
deriving DecidableEq, Repr

end Sys2Proof
end

