-- ==== Sys2Proof/WellFormed.lean ====
section
/-! DEFINITION. Which terms are well formed: a command word (spec/30_encoding.md R80 to R82), a command, and an input of
the block (spec/20_memory.md R50, spec/10_state.md R23). Each check is written from its rule, apart from the decoder and
from the bus. -/

namespace Sys2Proof

/-- R80: the field RSV, bits 31:8, must be 0. -/
def reservedClear (w : Word) : Bool := w.extractLsb' 8 24 == 0

/-- R81: the field OP, bits 7:0, is one of the opcodes 0x01 to 0x06. -/
def opcodeListed (w : Word) : Bool := 1 ≤ (w.extractLsb' 0 8).toNat && (w.extractLsb' 0 8).toNat ≤ 6

/-- R82: a word is legal when RSV is 0 and OP is listed. Every other word is illegal. -/
def legalWord (w : Word) : Bool := reservedClear w && opcodeListed w

/-- A command carries no operand (R83), so every command is well formed. -/
def Instr.wellFormed : Instr → Bool
  | .pack => true
  | .unpack => true
  | .ckgen => true
  | .ckchk => true
  | .fenc => true
  | .fdec => true

/-- An access lies in the block's 16 KiB window (R50), and a written value fits its n bytes (R23: larger values cannot be
presented). Whether the block then takes the access is the bus's affair, not a matter of form. -/
def Machine.Input.wellFormed : Input → Bool
  | .read off _ => off < 0x4000
  | .write off n v => off < 0x4000 && v < 2 ^ (8 * n)
  | .reset => true

end Sys2Proof
end

