-- ==== Sys2Proof/Decode.lean ====
section
/-! DEFINITION. The command decoder, total on every 32-bit word and refusing by name (spec/30_encoding.md R80 to R82), and
after it the encoder, written from the fields of R80 and the opcodes of R81. -/

namespace Sys2Proof

/-- Why a word is illegal (R82). -/
inductive Illegal where
  /-- `w[31:8] ≠ 0`. -/
  | reserved
  /-- `w[7:0]` is 0x00 or lies in 0x07 to 0xFF. -/
  | opcode
deriving DecidableEq, Repr

/-- One row of the opcode map: a word `w` is the row's command when `w & mask = bits`. -/
structure CommandRow where
  bits : Word
  mask : Word
  instr : Instr
deriving DecidableEq, Repr

/-- The opcode map of R81: "match = the word below, mask = 0xFFFFFFFF". -/
def commandTable : List CommandRow :=
  [ ⟨0x00000001, 0xFFFFFFFF, .pack⟩,
    ⟨0x00000002, 0xFFFFFFFF, .unpack⟩,
    ⟨0x00000003, 0xFFFFFFFF, .ckgen⟩,
    ⟨0x00000004, 0xFFFFFFFF, .ckchk⟩,
    ⟨0x00000005, 0xFFFFFFFF, .fenc⟩,
    ⟨0x00000006, 0xFFFFFFFF, .fdec⟩ ]

/-- The command a word encodes, or why it is illegal (R82: "total on any 32-bit word: it returns one of six commands or
illegal"). -/
def decode (w : Word) : Except Illegal Instr :=
  match commandTable.find? (fun row => w &&& row.mask == row.bits) with
  | some row => .ok row.instr
  | none => .error (if reservedClear w then .opcode else .reserved)

/-- The opcode of a command, the field OP (R81). -/
def Instr.opcode : Instr → BitVec 8
  | .pack => 0x01
  | .unpack => 0x02
  | .ckgen => 0x03
  | .ckchk => 0x04
  | .fenc => 0x05
  | .fdec => 0x06

/-- The command word of a command: RSV = 0 in bits 31:8, OP in bits 7:0 (R80). -/
def encode (i : Instr) : Word := (0 : BitVec 24) ++ i.opcode

/-- What the decoder reads from an instruction whose `nbits` low bits are `w`, the rest 0. A command word is one 32-bit
unit that no byte order splits (spec/20_memory.md R56), so its bits are numbered as the table numbers them; a number that
does not fit the 32-bit format is no command word. -/
def decodeTableWord (nbits w : Nat) : Option Instr :=
  let bits := w % 2 ^ nbits
  if bits < 2 ^ 32 then
    match decode (BitVec.ofNat 32 bits) with
    | .ok i => some i
    | .error _ => none
  else none

end Sys2Proof
end

