-- ==== Sys2Proof/Config.lean ====
section
/-! DEFINITION. What is fixed for one machine: the spec's constants (R7), its open parameters (R6) and the free values
behind the bytes it leaves unspecified (U5, U7). The parameters and the free values are opaque constants with no body:
no proof can use a value of one, so whatever is proved holds for every value. -/

namespace Sys2Proof.Config

/-- PREFIX_LIMIT: prefixes are 14-bit, valid in `[0, 16384)` (spec/00_scope.md R7). -/
abbrev prefixLimit : Nat := 16384

/-- TIER1_LIMIT: a prefix or leading byte below it uses the 1-byte form (R7). -/
abbrev tier1Limit : Nat := 64

/-- TIER2_LIMIT: a leading byte at or above it is malformed (R7). -/
abbrev tier2Limit : Nat := 128

/-- MIN_FRAME: the least length of a frame (R7). -/
abbrev minFrame : Nat := 3

/-- CTX, the 7 ASCII bytes "SS58PRE" (R7). -/
def ctx : List Byte := [0x53, 0x53, 0x35, 0x38, 0x50, 0x52, 0x45]

/-- How far MAX_PAYLOAD lies above its least value 32: 4061 values, so that R6's range 32 to 4092 is what it admits. -/
opaque payloadSlack : Fin 4061

/-- MAX_PAYLOAD, the largest payload FENC accepts: open, with 32 ≤ MAX_PAYLOAD ≤ 4092 (R6, D5; log entry 5). -/
def maxPayload : Nat := payloadSlack.val + 32

/-- BUF_CAP = MAX_PAYLOAD + 4, the capacity of IN and of OUT (R6, D4). -/
def bufCap : Nat := maxPayload + 4

/-- Which 16 KiB page of the platform's address space holds the block: open (R6, D3; log entry 6). -/
opaque blockIndex : Nat

/-- BLOCK_BASE, 16 KiB aligned (R6). -/
def blockBase : Nat := 0x4000 * blockIndex

/-- DIGEST64: a total function from byte strings to 64 bytes; nothing else is known of it (R8, D6; log entry 4). -/
opaque digest64 : List Byte → Vector Byte 64

/-- FREE VALUE. `inDraw r i` is what `IN[i]` holds after reset number `r` until the host writes it (spec/20_memory.md R66,
spec/93_implementation_defined.md U5; log entry 7). -/
opaque inDraw : Nat → Nat → Byte

/-- FREE VALUE. `outDraw k` is the byte that the `k`-th read of OUT at an index ≥ OUT_LEN returns (spec/20_memory.md R65,
U7; log entry 8). -/
opaque outDraw : Nat → Byte

end Sys2Proof.Config
end

