-- ==== Sys2Proof/Machine/State.lean ====
section
/-! DEFINITION. The state of the block as plain data, its value right after reset, and the reasons for which a step stops
(spec/10_state.md R20 to R39). -/

namespace Sys2Proof.Machine

/-- The values of STATUS.CODE that are ever written (spec/60_exceptions.md R170). -/
inductive Code where
  /-- 0x0: no command since reset. -/
  | none
  /-- 0x1: the command succeeded. -/
  | ok
  /-- 0x2: too few bytes for the command. -/
  | errShort
  /-- 0x3: leading byte ≥ 128. -/
  | errTier
  /-- 0x4: a tier-2 leading byte with too few bytes. -/
  | errShortTier
  /-- 0x5: the recomputed checksum differs from the last two bytes. -/
  | errChecksum
  /-- 0x6: PREFIX_IN ≥ 16384. -/
  | errPrecond
  /-- 0x7: the CMD word is illegal. -/
  | errIllegal
  /-- 0x8: an input or a payload does not fit. -/
  | errCapacity
deriving DecidableEq, Repr

/-- The nine registers of spec/10_state.md R37. -/
inductive Reg where
  | cmd | status | prefixIn | inLen | prefixOut | offset | cksum | outLen | cap
deriving DecidableEq, Repr

/-- Why a host access is a bus error (spec/60_exceptions.md R182). -/
inductive BusError where
  /-- An offset that R53 leaves unmapped. -/
  | unmapped
  /-- A width the region does not allow (R57). -/
  | width
  /-- A register access at an offset that is no multiple of 4 (R57). -/
  | misaligned
  /-- A read of CMD (R58). -/
  | writeOnly
  /-- A write to a read-only register or to the OUT window (R58). -/
  | readOnly
deriving DecidableEq, Repr

/-- The faults that stop the machine: there is none. An error of a command is recorded in STATUS and the block goes on
(R178, R179), so no step of the model ends in a fault (log entry 16; safe). -/
inductive Fault where
deriving DecidableEq, Repr

/-- The reasons for which a step has no successor. -/
inductive Refusal where
  /-- A command without a meaning, by its mnemonic. No arm of `exec` raises it. Safe. -/
  | notModelled (mnemonic : String)
  /-- The host access is a bus error: "a model treats the access as refused" (R182). Raised by the bus; safe. -/
  | busError (why : BusError)
  /-- The access lies outside the block's 16 KiB window and so does not reach the block (R50). Raised by the bus; safe
  (log entry 14). -/
  | outsideWindow
  /-- A write whose value does not fit its n bytes, which no host can present (R23). Raised by the bus; safe (log entry
  13). -/
  | notPresentable
deriving DecidableEq, Repr

/-- The buffers' bytes as (offset, byte) cells, strictly rising in the offset. An offset that is not listed holds no
value: nothing has been written there since reset (log entry 9). -/
abbrev Memory := List Host.Cell

/-- The whole state (R22, R36), the inputs still to take effect and what the host has read so far (R93, R210), and two
counters of the model's own that index free values (log entries 7 and 8). CMD holds no state (R36) and CAP is hard-wired
(R31; log entry 10). -/
structure State where
  /-- PREFIX_IN (R23). -/
  prefixIn : Word
  /-- IN_LEN (R24). -/
  inLen : Word
  /-- STATUS.CODE (R26). -/
  code : Code
  /-- STATUS.FAULT, sticky (R26, R173). -/
  fault : Bool
  /-- PREFIX_OUT, bits 13:0 (R27). -/
  prefixOut : BitVec 14
  /-- OFFSET, bits 1:0 (R28). -/
  offset : BitVec 2
  /-- CKSUM.CK0 (R29). -/
  ck0 : Byte
  /-- CKSUM.CK1 (R29). -/
  ck1 : Byte
  /-- OUT_LEN (R30). -/
  outLen : Word
  /-- The IN buffer at 0x1000 and the OUT buffer at 0x2000 (R32, R33). -/
  mem : Memory
  /-- Host accesses and resets still to take effect, oldest first (log entry 1). -/
  inputs : List Input
  /-- The values the host has read, oldest first (R210; log entry 3). -/
  observed : List Observation
  /-- How many resets since the first one: selects the free bytes of IN (log entry 7). -/
  resets : Nat
  /-- How many unspecified OUT bytes have been read: selects the next free byte (log entry 8). -/
  draws : Nat
deriving DecidableEq, Repr

/-- The block right after reset (R36, R200): every register at 0, STATUS at NONE without FAULT, no byte of IN or OUT
written, no input pending. -/
def State.reset : State :=
  { prefixIn := 0, inLen := 0, code := .none, fault := false, prefixOut := 0, offset := 0, ck0 := 0, ck1 := 0,
    outLen := 0, mem := [], inputs := [], observed := [], resets := 0, draws := 0 }

/-- What a command or a host access answers. -/
abbrev Result := Host.Outcome State Fault Refusal

end Sys2Proof.Machine
end

