-- ==== Sys2Proof/Machine/Flags.lean ====
section
/-! DEFINITION. The flags of the block: the values of STATUS.CODE, which errors set STATUS.FAULT, and the STATUS word
(spec/10_state.md R26, R34; spec/60_exceptions.md R170, R173). -/

namespace Sys2Proof.Machine

/-- The 4-bit value of STATUS.CODE (R170). -/
def Code.bits : Code → BitVec 4
  | .none => 0x0
  | .ok => 0x1
  | .errShort => 0x2
  | .errTier => 0x3
  | .errShortTier => 0x4
  | .errChecksum => 0x5
  | .errPrecond => 0x6
  | .errIllegal => 0x7
  | .errCapacity => 0x8

/-- The codes whose error sets the sticky FAULT bit (R173): ERR_PRECOND and ERR_ILLEGAL. -/
def Code.setsFault : Code → Bool
  | .errPrecond => true
  | .errIllegal => true
  | .none => false
  | .ok => false
  | .errShort => false
  | .errTier => false
  | .errShortTier => false
  | .errChecksum => false
  | .errCapacity => false

/-- STATUS as the host reads it: CODE in bits 3:0, FAULT in bit 8, every other bit 0 (R26). -/
def statusWord (code : Code) (fault : Bool) : Word :=
  (0 : BitVec 23) ++ BitVec.ofBool fault ++ (0 : BitVec 4) ++ code.bits

end Sys2Proof.Machine
end

