-- ==== Sys2Proof/Machine/Ops.lean ====
section
/-! DEFINITION. The named operations over memory and registers: reading and writing bytes of the buffers, the writes a
command makes (`REG <- v`, `OUT[i] <- v`), the two ways a command ends (`finish()` and `raise Error(code)`,
spec/00_scope.md R13), and reset (spec/70_reset_and_hazards.md R200).

An error of this block transfers no control and saves nothing (spec/60_exceptions.md R178): `raiseError` is the whole of
taking one, and there is no return from it (R179). -/

namespace Sys2Proof.Machine

/-! ### Memory -/

/-- The canonical form: offsets strictly rise. An unlisted offset holds no value, and a cell always holds a byte, so no
cell repeats what an unlisted offset reads as. -/
abbrev Memory.wf (m : Memory) : Prop := m.Pairwise (fun x y => x.1 < y.1)

/-- The byte written at an offset, or no value. -/
def Memory.read : Memory → Nat → Option Byte
  | [], _ => .none
  | (k, b) :: rest, a => if k = a then some b else Memory.read rest a

/-- Write one byte, keeping the cells in order. -/
def Memory.write : Memory → Nat → Byte → Memory
  | [], a, b => [(a, b)]
  | (k, c) :: rest, a, b =>
    if a < k then (a, b) :: (k, c) :: rest
    else if a = k then (a, b) :: rest
    else (k, c) :: Memory.write rest a b

/-- Write consecutive bytes from an offset up. -/
def Memory.writes : Memory → Nat → List Byte → Memory
  | m, _, [] => m
  | m, a, b :: bs => Memory.writes (m.write a b) (a + 1) bs

/-- Drop the bytes at the `n` offsets from `lo` up: they hold no value any more. -/
def Memory.clear (m : Memory) (lo n : Nat) : Memory := m.filter (fun x => !(lo ≤ x.1 && x.1 < lo + n))

/-- Where the IN window begins (spec/20_memory.md R52). -/
abbrev inBase : Nat := 0x1000

/-- Where the OUT window begins (R52). -/
abbrev outBase : Nat := 0x2000

/-- The size of the page each window lies in (R52). -/
abbrev pageSize : Nat := 0x1000

/-! ### The buffers -/

/-- `IN[i]`: the last byte the host wrote there, or the byte drawn for it at the last reset (R66). -/
def inByte (s : State) (i : Nat) : Byte := (s.mem.read (inBase + i)).getD (Config.inDraw s.resets i)

/-- The host stores a byte in IN (R32). -/
def State.setIn (s : State) (i : Nat) (b : Byte) : State := { s with mem := s.mem.write (inBase + i) b }

/-- A command's writes of OUT: `OUT[i] <- bs[i]` for every i, and `OUT_LEN <- len(bs)` (R112, R152, R154). The other bytes
of OUT become unspecified, for "bytes of OUT at index ≥ the n of the last successful writer are not promised to keep older
values" (R65; log entry 8). -/
def State.storeOut (s : State) (bs : List Byte) : State :=
  { s with mem := (s.mem.clear outBase pageSize).writes outBase bs, outLen := BitVec.ofNat 32 bs.length }

/-! ### The registers -/

/-- The host's write of PREFIX_IN, all 32 bits as written (R23). -/
def State.setPrefixIn (s : State) (w : Word) : State := { s with prefixIn := w }

/-- The host's write of IN_LEN, all 32 bits as written (R24). -/
def State.setInLen (s : State) (w : Word) : State := { s with inLen := w }

/-- `PREFIX_OUT <- p` (R27). -/
def State.setPrefixOut (s : State) (p : Nat) : State := { s with prefixOut := BitVec.ofNat 14 p }

/-- `OFFSET <- n` (R28). -/
def State.setOffset (s : State) (n : Nat) : State := { s with offset := BitVec.ofNat 2 n }

/-- `CKSUM.CK0 <- c[0]`, `CKSUM.CK1 <- c[1]` (R29). -/
def State.setCksum (s : State) (c : Byte × Byte) : State := { s with ck0 := c.1, ck1 := c.2 }

/-! ### How a command ends -/

/-- `finish()`: STATUS.CODE <- OK; FAULT stays (R13, R34). -/
def finish (s : State) : State := { s with code := .ok }

/-- `raise Error(code)`: STATUS.CODE is set to the code, FAULT is set if R173 says so, and no other state changes
(R13, R178, R180). -/
def raiseError (c : Code) (s : State) : State := { s with code := c, fault := s.fault || c.setsFault }

/-! ### The run -/

/-- A host read returns a value (R210). -/
def State.observe (s : State) (o : Observation) : State := { s with observed := s.observed ++ [o] }

/-- One more unspecified byte of OUT has been read (R65). -/
def State.countDraw (s : State) : State := { s with draws := s.draws + 1 }

/-- What is left of the inputs once the oldest is taken. -/
def State.setInputs (s : State) (rest : List Input) : State := { s with inputs := rest }

/-- The platform's reset: every piece of the block's state to its value of R36, and a fresh draw of IN (R200, U5). The
host's program and what it has read lie outside the block and stay. -/
def platformReset (s : State) : State :=
  { State.reset with inputs := s.inputs, observed := s.observed, resets := s.resets + 1, draws := s.draws }

end Sys2Proof.Machine
end

