-- ==== Sys2Proof/Machine/Operands.lean ====
section
/-! DEFINITION. The operands of the commands. No command word carries one (spec/30_encoding.md R83): a command reads
PREFIX_IN, IN_LEN and bytes of IN, each an unsigned number or a byte string (spec/00_scope.md R9, R12). -/

namespace Sys2Proof.Machine

/-- `p <- PREFIX_IN`, a 32-bit unsigned value (R112, R152). -/
abbrev prefixOperand (s : State) : Nat := s.prefixIn.toNat

/-- `n <- IN_LEN`, a 32-bit unsigned value (R113, R133, R134, R152, R154). -/
abbrev lengthOperand (s : State) : Nat := s.inLen.toNat

/-- `IN[0..n)` as a byte string (R12). -/
def message (s : State) (n : Nat) : List Byte := (List.range n).map (inByte s)

end Sys2Proof.Machine
end

