-- ==== Sys2Proof/Machine/Codec.lean ====
section
/-! DEFINITION. The pure functions the commands apply (spec/00_scope.md R14): pack and unpack (spec/40_prefix_codec.md
R110, R111), checksum (spec/41_checksum.md R130), frame_decode and frame_encode (spec/42_frame.md R150, R151). Numbers are
unbounded unsigned integers (R10). -/

namespace Sys2Proof.Machine

/-- The four codes of malformed input (spec/60_exceptions.md R171). -/
inductive Malformed where
  | short | tier | shortTier | checksum
deriving DecidableEq, Repr

/-- The code that reports a malformed input (R170). -/
def Malformed.code : Malformed → Code
  | .short => .errShort
  | .tier => .errTier
  | .shortTier => .errShortTier
  | .checksum => .errChecksum

/-- What `unpack` returns: `(prefix, offset)`. -/
structure Unpacked where
  pfx : Nat
  off : Nat
deriving DecidableEq, Repr

/-- What `frame_decode` returns: `(prefix, offset, payload, ck)`. -/
structure Decoded where
  pfx : Nat
  off : Nat
  payload : List Byte
  ck : Byte × Byte
deriving DecidableEq, Repr

/-- `byte0 = ((p & 0b1111_1100) >> 2) | 0b0100_0000` (R110). -/
def packByte0 (p : Nat) : Nat := ((p &&& 0b11111100) >>> 2) ||| 0b01000000

/-- `byte1 = (p >> 8) | ((p & 0b11) << 6)` (R110). -/
def packByte1 (p : Nat) : Nat := (p >>> 8) ||| ((p &&& 0b11) <<< 6)

/-- `pack` (R110). The rule requires p < 16384 and leaves `pack` undefined from there on. DESIGN CHOICE, safe: for such a p
this function answers the tier-2 bytes cut to 8 bits, which no command reaches, since PACK and FENC check p first (R112,
R152; log entry 21). -/
def pack (p : Nat) : List Byte :=
  if p < Config.tier1Limit then [BitVec.ofNat 8 p]
  else [BitVec.ofNat 8 (packByte0 p), BitVec.ofNat 8 (packByte1 p)]

/-- `lower = ((b0 << 2) | (b1 >> 6)) & 0xFF` (R111). -/
def unpackLower (b0 b1 : Nat) : Nat := ((b0 <<< 2) ||| (b1 >>> 6)) &&& 0xFF

/-- `upper = b1 & 0b0011_1111` (R111). -/
def unpackUpper (b1 : Nat) : Nat := b1 &&& 0b00111111

/-- `unpack` (R111). The rule requires a byte string that is not empty; the empty one, on which no command calls it, is
answered as too short (log entry 17). -/
def unpack : List Byte → Except Malformed Unpacked
  | [] => .error .short
  | b0 :: rest =>
    if b0.toNat < Config.tier1Limit then .ok ⟨b0.toNat, 1⟩
    else if b0.toNat < Config.tier2Limit then
      match rest with
      | [] => .error .shortTier
      | b1 :: _ => .ok ⟨unpackLower b0.toNat b1.toNat ||| (unpackUpper b1.toNat <<< 8), 2⟩
    else .error .tier

/-- `checksum(m) = take(DIGEST64(CTX ++ m), 2)`, as the pair (CK0, CK1) (R130). -/
def checksum (m : List Byte) : Byte × Byte :=
  let d := Config.digest64 (Config.ctx ++ m)
  (d[0], d[1])

/-- The bytes at indices len−2 and len−1 of a frame are c[0] and c[1] (spec/30_encoding.md R90). It is asked of frames of at
least 3 bytes only (log entry 22). -/
def endsWith (F : List Byte) (c : Byte × Byte) : Bool :=
  F[F.length - 2]? == some c.1 && F[F.length - 1]? == some c.2

/-- `frame_decode` (R150), its tests in the rule's order. The leading byte of an empty frame, which the length test refuses,
is taken as 0 (log entry 22). -/
def frameDecode (F : List Byte) : Except Malformed Decoded :=
  let n := F.length
  let b0 := (F[0]?.getD 0).toNat
  if n < Config.minFrame then .error .short
  else if Config.tier2Limit ≤ b0 then .error .tier
  else if Config.tier1Limit ≤ b0 ∧ n < 4 then .error .shortTier
  else
    match unpack F with
    | .error e => .error e
    | .ok u =>
      let c := checksum (F.take (n - 2))
      if endsWith F c then .ok ⟨u.pfx, u.off, (F.take (n - 2)).drop u.off, c⟩
      else .error .checksum

/-- `frame_encode` (R151): `m ++ checksum(m)` with `m = pack(p) ++ P`. The rule requires p < 16384, and FENC checks it
first; what this function answers otherwise is the model's choice (log entry 21). -/
def frameEncode (p : Nat) (P : List Byte) : List Byte :=
  let m := pack p ++ P
  let c := checksum m
  m ++ [c.1, c.2]

end Sys2Proof.Machine
end

