-- ==== Sys2Proof/Machine/ChecksumEngine.lean ====
section
/-! DEFINITION. The checksum engine commands CKGEN and CKCHK (spec/41_checksum.md). -/

namespace Sys2Proof.Machine

/-- CKGEN (R133). -/
def execCkgen (s : State) : Result :=
  let n := lengthOperand s
  if Config.bufCap < n then .next (raiseError .errCapacity s)
  else .next (finish (s.setCksum (checksum (message s n))))

/-- CKCHK (R134). -/
def execCkchk (s : State) : Result :=
  let n := lengthOperand s
  if Config.bufCap < n then .next (raiseError .errCapacity s)
  else if n < 2 then .next (raiseError .errShort s)
  else
    let c := checksum (message s (n - 2))
    if c.1 = inByte s (n - 2) ∧ c.2 = inByte s (n - 1) then .next (finish (s.setCksum c))
    else .next (raiseError .errChecksum s)

end Sys2Proof.Machine
end

