-- ==== Sys2Proof/Machine/Frame.lean ====
section
/-! DEFINITION. The frame commands FENC and FDEC (spec/42_frame.md). -/

namespace Sys2Proof.Machine

/-- FENC (R152). CKSUM receives the frame's last two bytes, which are `checksum(pack(p) ++ P)` (R151); the
frame always has them (log entry 22). -/
def execFenc (s : State) : Result :=
  let p := prefixOperand s
  let n := lengthOperand s
  if Config.prefixLimit ≤ p then .next (raiseError .errPrecond s)
  else if Config.maxPayload < n then .next (raiseError .errCapacity s)
  else
    let F := frameEncode p (message s n)
    let c := (F[F.length - 2]?.getD 0, F[F.length - 1]?.getD 0)
    .next (finish (((s.storeOut F).setOffset (pack p).length).setCksum c))

/-- FDEC (R154). -/
def execFdec (s : State) : Result :=
  let n := lengthOperand s
  if Config.bufCap < n then .next (raiseError .errCapacity s)
  else
    match frameDecode (message s n) with
    | .error e => .next (raiseError e.code s)
    | .ok r =>
      if Config.maxPayload < r.payload.length then .next (raiseError .errCapacity s)
      else .next (finish ((((s.storeOut r.payload).setPrefixOut r.pfx).setOffset r.off).setCksum r.ck))

end Sys2Proof.Machine
end

