-- ==== Sys2Proof/Machine/PrefixCodec.lean ====
section
/-! DEFINITION. The prefix codec commands PACK and UNPACK (spec/40_prefix_codec.md). -/

namespace Sys2Proof.Machine

/-- PACK (R112). -/
def execPack (s : State) : Result :=
  let p := prefixOperand s
  if Config.prefixLimit ≤ p then .next (raiseError .errPrecond s)
  else
    let bs := pack p
    .next (finish ((s.storeOut bs).setOffset bs.length))

/-- UNPACK (R113). -/
def execUnpack (s : State) : Result :=
  let n := lengthOperand s
  if Config.bufCap < n then .next (raiseError .errCapacity s)
  else if n = 0 then .next (raiseError .errShort s)
  else
    match unpack (message s (min n 2)) with
    | .error e => .next (raiseError e.code s)
    | .ok u => .next (finish ((s.setPrefixOut u.pfx).setOffset u.off))

end Sys2Proof.Machine
end

