-- ==== Sys2Proof/Machine/Bus.lean ====
section
/-! DEFINITION. The block's address space as the host reaches it: the address map, access widths and rights
(spec/20_memory.md R50 to R58), the registers as words (spec/10_state.md R23 to R31), and the write of CMD, which runs a
command (R25). -/

namespace Sys2Proof.Machine

/-- The offset of a register from BLOCK_BASE (R37). -/
def Reg.address : Reg → Nat
  | .cmd => 0x000
  | .status => 0x004
  | .prefixIn => 0x008
  | .inLen => 0x00C
  | .prefixOut => 0x010
  | .offset => 0x014
  | .cksum => 0x018
  | .outLen => 0x01C
  | .cap => 0x020

/-- The nine registers, in the order of R37. -/
def allRegs : List Reg := [.cmd, .status, .prefixIn, .inLen, .prefixOut, .offset, .cksum, .outLen, .cap]

/-- The register whose word begins at an offset (R37, R51). -/
def regAt (off : Nat) : Option Reg := allRegs.find? (fun r => r.address == off)

/-- What an offset reaches (R51, R52). -/
inductive Place where
  | reg (r : Reg)
  | inByte (i : Nat)
  | outByte (i : Nat)
deriving DecidableEq, Repr

/-- The place an access of n bytes at an offset reaches, or the bus error it is (R53, R57). -/
def locate (off n : Nat) : Except BusError Place :=
  if off < 0x024 then
    if n = 4 then
      match regAt off with
      | some r => .ok (.reg r)
      | .none => .error .misaligned
    else .error .width
  else if outBase ≤ off ∧ off - outBase < Config.bufCap then
    if n = 1 then .ok (.outByte (off - outBase)) else .error .width
  else if inBase ≤ off ∧ off - inBase < Config.bufCap then
    if n = 1 then .ok (.inByte (off - inBase)) else .error .width
  else .error .unmapped

/-- A register's 32-bit value, bits without a field reading 0; CMD has none to read (R25 to R31, R58). -/
def readReg (s : State) : Reg → Option Word
  | .cmd => .none
  | .status => some (statusWord s.code s.fault)
  | .prefixIn => some s.prefixIn
  | .inLen => some s.inLen
  | .prefixOut => some ((0 : BitVec 18) ++ s.prefixOut)
  | .offset => some ((0 : BitVec 30) ++ s.offset)
  | .cksum => some ((0 : BitVec 16) ++ s.ck1 ++ s.ck0)
  | .outLen => some s.outLen
  | .cap => some (BitVec.ofNat 32 Config.maxPayload)

/-- A host read of `OUT[i]`: the stored byte below OUT_LEN, else a fresh free byte (R33, R65). -/
def readOut (s : State) (i : Nat) : State :=
  match if i < s.outLen.toNat then s.mem.read (outBase + i) else .none with
  | some b => s.observe (.byte b)
  | .none => (s.observe (.byte (Config.outDraw s.draws))).countDraw

/-- A host write of a word to CMD runs the command it encodes; an illegal word raises ERR_ILLEGAL, which reads nothing and
is checked before anything else (R25, R82, R174). -/
def runCommand (w : Word) (s : State) : Result :=
  match decode w with
  | .ok i => exec i s
  | .error _ => .next (raiseError .errIllegal s)

/-- A host write of a register (R23 to R25); the other six are read-only (R58). -/
def writeReg (r : Reg) (w : Word) (s : State) : Result :=
  match r with
  | .cmd => runCommand w s
  | .prefixIn => .next (s.setPrefixIn w)
  | .inLen => .next (s.setInLen w)
  | .status => .refused (.busError .readOnly)
  | .prefixOut => .refused (.busError .readOnly)
  | .offset => .refused (.busError .readOnly)
  | .cksum => .refused (.busError .readOnly)
  | .outLen => .refused (.busError .readOnly)
  | .cap => .refused (.busError .readOnly)

/-- The size of the block's window (R50). -/
abbrev windowSize : Nat := 0x4000

/-- `MemRead(BLOCK_BASE + off, n)` (R57 to R59). -/
def hostRead (off n : Nat) (s : State) : Result :=
  if windowSize ≤ off then .refused .outsideWindow
  else
    match locate off n with
    | .error e => .refused (.busError e)
    | .ok (.reg r) =>
      match readReg s r with
      | some w => .next (s.observe (.word w))
      | .none => .refused (.busError .writeOnly)
    | .ok (.inByte i) => .next (s.observe (.byte (inByte s i)))
    | .ok (.outByte i) => .next (readOut s i)

/-- `MemWrite(BLOCK_BASE + off, n, v)` (R57 to R59). -/
def hostWrite (off n v : Nat) (s : State) : Result :=
  if windowSize ≤ off then .refused .outsideWindow
  else if 2 ^ (8 * n) ≤ v then .refused .notPresentable
  else
    match locate off n with
    | .error e => .refused (.busError e)
    | .ok (.reg r) => writeReg r (BitVec.ofNat 32 v) s
    | .ok (.inByte i) => .next (s.setIn i (BitVec.ofNat 8 v))
    | .ok (.outByte _) => .refused (.busError .readOnly)

/-- The offset a host address reaches, when it lies in the block's window (R50). -/
def offsetOf (addr : Nat) : Option Nat :=
  if Config.blockBase ≤ addr ∧ addr < Config.blockBase + windowSize then some (addr - Config.blockBase) else .none

/-- `MemRead(addr, n)` by host address (R13, R50). -/
def memRead (addr n : Nat) (s : State) : Result :=
  match offsetOf addr with
  | some off => hostRead off n s
  | .none => .refused .outsideWindow

/-- `MemWrite(addr, n, v)` by host address (R13, R50). -/
def memWrite (addr n v : Nat) (s : State) : Result :=
  match offsetOf addr with
  | some off => hostWrite off n v s
  | .none => .refused .outsideWindow

/-- One input takes effect. -/
def perform (x : Input) (s : State) : Result :=
  match x with
  | .read off n => hostRead off n s
  | .write off n v => hostWrite off n v s
  | .reset => .next (platformReset s)

end Sys2Proof.Machine
end

