-- ==== Sys2Proof/Machine/Step.lean ====
section
/-! DEFINITION. One step of the machine: the oldest pending input takes effect, atomically and in the host's order
(spec/20_memory.md R60, R61); and how the host of this pipeline places a command where the next step finds it. -/

namespace Sys2Proof.Machine

/-- One step. With no input pending the block waits and nothing changes: it never acts on its own (spec/10_state.md R20;
spec/70_reset_and_hazards.md R201; log entry 2). -/
def step (s : State) : Host.Outcome State Fault Refusal :=
  match s.inputs with
  | [] => .next s
  | x :: rest => perform x (s.setInputs rest)

/-- The state whose next input is the host's write of the word to CMD: a 32-bit access at offset 0x000 (R25). The block
fetches no instruction (R21); the host's CMD write is what brings it one (log entry 1). -/
def State.withFetchWord (s : State) (nbits w : Nat) : State :=
  s.setInputs (.write 0x000 4 (w % 2 ^ nbits) :: s.inputs)

end Sys2Proof.Machine
end

