-- ==== Sys2Proof/Machine/HostNotation.lean ====
section
/-! DEFINITION. The host notation of spec/30_encoding.md R93 and the expansions of its pseudo-instructions (R94), as lists
of inputs. -/

namespace Sys2Proof.Machine

/-- `W32 REG, v`. -/
def w32 (r : Reg) (v : Word) : Input := .write r.address 4 v.toNat

/-- `R32 REG`. -/
def r32 (r : Reg) : Input := .read r.address 4

/-- `W8 IN[i], v`. -/
def w8In (i : Nat) (v : Byte) : Input := .write (inBase + i) 1 v.toNat

/-- `R8 IN[i]`. -/
def r8In (i : Nat) : Input := .read (inBase + i) 1

/-- `R8 OUT[i]`. -/
def r8Out (i : Nat) : Input := .read (outBase + i) 1

/-- `CMD op` expands to `W32 CMD, word(op)`. -/
def cmdInput (i : Instr) : Input := w32 .cmd (encode i)

/-- `LOADIN [b0, ..., bk−1]`: the bytes, then IN_LEN. -/
def loadIn (bs : List Byte) : List Input :=
  bs.mapIdx (fun i b => w8In i b) ++ [w32 .inLen (BitVec.ofNat 32 bs.length)]

/-- `ENCODE p, [bytes]`. -/
def encodeAccesses (p : Word) (bs : List Byte) : List Input := w32 .prefixIn p :: (loadIn bs ++ [cmdInput .fenc])

/-- `DECODE [bytes]`. -/
def decodeAccesses (bs : List Byte) : List Input := loadIn bs ++ [cmdInput .fdec]

/-- `READOUT`, for the `n` that its read of OUT_LEN gives. -/
def readOutAccesses (n : Nat) : List Input := r32 .outLen :: (List.range n).map r8Out

end Sys2Proof.Machine
end

