-- ==== Sys2Proof/Safety.lean ====
section
/-! DEFINITION. What claims speak of: the invariant of the block's state, the end of a run
(spec/70_reset_and_hazards.md R210) and a run without a recorded violation (spec/60_exceptions.md R173, R188). -/

namespace Sys2Proof.Machine

/-- Offset `a` lies in the IN window (spec/20_memory.md R52). -/
abbrev InWindow (a : Nat) : Prop := inBase ≤ a ∧ a < inBase + Config.bufCap

/-- Offset `a` lies in the part of the OUT window below OUT_LEN, the bytes that hold a value (R33). -/
abbrev OutValid (s : State) (a : Nat) : Prop := outBase ≤ a ∧ a < outBase + s.outLen.toNat

/-- What every state of the block satisfies: the memory is in its canonical form; a cell lies in the IN window or below
OUT_LEN in the OUT window; every OUT byte below OUT_LEN has a cell; OUT_LEN ≤ BUF_CAP (R30); OFFSET is never 3 (R28); while
OFFSET is 0 no command has written PREFIX_OUT or OUT_LEN either (R28, R38, R203); and while CODE is NONE, which only reset gives (R170), the outputs and FAULT hold their reset values. -/
structure State.Inv (s : State) : Prop where
  memWf : s.mem.wf
  cells : ∀ a b, s.mem.read a = some b → InWindow a ∨ OutValid s a
  outHeld : ∀ a, OutValid s a → (s.mem.read a).isSome
  outLen : s.outLen.toNat ≤ Config.bufCap
  offset : s.offset ≠ 3
  unset : s.offset = 0 → s.prefixOut = 0 ∧ s.outLen = 0
  fresh : s.code = .none → s.fault = false ∧ s.prefixOut = 0 ∧ s.offset = 0 ∧ s.ck0 = 0 ∧ s.ck1 = 0 ∧ s.outLen = 0

/-- `OUT[0..OUT_LEN)` is the byte string `bs`. -/
structure State.OutIs (s : State) (bs : List Byte) : Prop where
  len : s.outLen.toNat = bs.length
  bytes : ∀ i, i < bs.length → s.mem.read (outBase + i) = bs[i]?

/-- What no command ever writes is in `t` as it was in `s`: PREFIX_IN, IN_LEN, every byte outside the OUT page (IN among
them), the pending inputs, what the host has read, and the counters of the free values (R38, R187). -/
structure State.SameInputs (s t : State) : Prop where
  prefixIn : t.prefixIn = s.prefixIn
  inLen : t.inLen = s.inLen
  mem : ∀ a, a < outBase ∨ outBase + pageSize ≤ a → t.mem.read a = s.mem.read a
  inputs : t.inputs = s.inputs
  observed : t.observed = s.observed
  resets : t.resets = s.resets
  draws : t.draws = s.draws

/-- The OUT buffer and OUT_LEN are in `t` as they were in `s`. -/
structure State.SameOut (s t : State) : Prop where
  outLen : t.outLen = s.outLen
  mem : ∀ a, t.mem.read a = s.mem.read a

/-- The command that led from `s` to `t` succeeded: CODE is OK, FAULT is as it was (R13, R34, R170), and what no command
writes is as it was. -/
structure State.EndedOk (s t : State) : Prop where
  code : t.code = .ok
  fault : t.fault = s.fault
  inputs : s.SameInputs t

/-- CKSUM is in `t` as it was in `s`. -/
abbrev State.SameCksum (s t : State) : Prop := t.ck0 = s.ck0 ∧ t.ck1 = s.ck1

/-- The output registers and STATUS are the same in both states. -/
structure State.SameOutputs (s s' : State) : Prop where
  code : s.code = s'.code
  fault : s.fault = s'.fault
  prefixOut : s.prefixOut = s'.prefixOut
  offset : s.offset = s'.offset
  ck0 : s.ck0 = s'.ck0
  ck1 : s.ck1 = s'.ck1
  outLen : s.outLen = s'.outLen

/-- IN_LEN is the same in both states, and so is `IN[0..IN_LEN)` when it fits the buffer (R32, R83). -/
structure State.SameMessage (s s' : State) : Prop where
  inLen : s.inLen = s'.inLen
  bytes : s.inLen.toNat ≤ Config.bufCap → ∀ k, k < s.inLen.toNat → inByte s k = inByte s' k

/-- Both states hold the same operands of a command, by the column "reads" of spec/30_encoding.md R83: PACK reads PREFIX_IN
alone; UNPACK IN_LEN, IN[0] where there is one, and IN[1] where there is one and IN[0] is a tier-2 byte; CKGEN, CKCHK and
FDEC IN_LEN and `IN[0..IN_LEN)`; FENC these and PREFIX_IN. -/
def SameOperands (i : Instr) (s s' : State) : Prop :=
  match i with
  | .pack => s.prefixIn = s'.prefixIn
  | .unpack => s.inLen = s'.inLen ∧ (s.inLen.toNat ≤ Config.bufCap →
      (1 ≤ s.inLen.toNat → inByte s 0 = inByte s' 0) ∧
      (2 ≤ s.inLen.toNat → 64 ≤ (inByte s 0).toNat → (inByte s 0).toNat < 128 → inByte s 1 = inByte s' 1))
  | .ckgen => s.SameMessage s'
  | .ckchk => s.SameMessage s'
  | .fenc => s.prefixIn = s'.prefixIn ∧ s.SameMessage s'
  | .fdec => s.SameMessage s'

/-- Digest byte 0 of CTX ++ m, which is CK0 (spec/41_checksum.md R130). -/
def ck0Of (m : List Byte) : Byte := (Config.digest64 (Config.ctx ++ m))[0]

/-- Digest byte 1 of CTX ++ m, which is CK1 (R130). -/
def ck1Of (m : List Byte) : Byte := (Config.digest64 (Config.ctx ++ m))[1]

/-- The tier-1 prefix byte by its fields: 0b00 and p[5:0] (spec/30_encoding.md R85). -/
def tier1Bytes (p : Word) : List Byte := [0b00#2 ++ p.extractLsb' 0 6]

/-- The tier-2 prefix bytes by their fields: 0b01 and p[7:2], then p[1:0] and p[13:8] (R86). -/
def tier2Bytes (p : Word) : List Byte := [0b01#2 ++ p.extractLsb' 2 6, p.extractLsb' 0 2 ++ p.extractLsb' 8 6]

/-- The prefix of a tier-2 pair by its fields: p[13:8] = b1[5:0], p[7:2] = b0[5:0], p[1:0] = b1[7:6] (R86). -/
def tier2Prefix (b0 b1 : Byte) : BitVec 14 := b1.extractLsb' 0 6 ++ b0.extractLsb' 0 6 ++ b1.extractLsb' 6 2

/-- The 64 tier-2 pairs that PACK never makes (R92): b0 in 0x40 to 0x4F and b1 one of 0x00, 0x40, 0x80, 0xC0. -/
abbrev NonCanonical (b0 b1 : Byte) : Prop :=
  0x40 ≤ b0.toNat ∧ b0.toNat ≤ 0x4F ∧ b1.toNat ∈ [0x00, 0x40, 0x80, 0xC0]

/-- The run has ended: its last access has taken effect (R210). -/
abbrev State.Final (s : State) : Prop := s.inputs = []

/-- The premise every claim about a host program takes: FAULT = 0 at the end (R173). -/
abbrev State.FaultFree (s : State) : Prop := s.fault = false

/-- A run of `k` steps that ends, with no recorded violation. -/
def SafeRun (k : Nat) (s t : State) : Prop := Host.Core.run Sys2Proof.core k s = .next t ∧ t.Final ∧ t.FaultFree

end Sys2Proof.Machine
end

