-- ==== Sys2Proof/Certificates/Slice0/Obligations.lean ====
section
/-! DEFINITION. The statements for the provers. Each docstring names the rule of spec/ it formalises. Every statement about a
free value (an IN byte nobody has written, an OUT byte past OUT_LEN, a digest byte) holds for every value of it. -/

open Sys2Proof Sys2Proof.Machine

/-! ### Command words (spec/30_encoding.md R80 to R83) -/

/-- R81: the six words of the opcode map. -/
def Obligations.CommandWordsDecode : Prop :=
  decode 0x00000001 = .ok .pack ∧ decode 0x00000002 = .ok .unpack ∧ decode 0x00000003 = .ok .ckgen ∧
  decode 0x00000004 = .ok .ckchk ∧ decode 0x00000005 = .ok .fenc ∧ decode 0x00000006 = .ok .fdec

/-- R80, R81: decoding and encoding agree on every word and every command. -/
def Obligations.DecodeIffEncode : Prop :=
  ∀ (w : Word) (i : Instr), decode w = .ok i ↔ w = encode i

/-- R82: a word is illegal exactly when `w[31:8] ≠ 0`, or `w[7:0]` is 0x00 or lies in 0x07 to 0xFF; every word is a command
or illegal; and an illegal word written to CMD sets ERR_ILLEGAL and FAULT and changes nothing else. -/
def Obligations.IllegalWordsExactly : Prop :=
  ∀ w : Word,
    ((∃ e, decode w = .error e) ↔
      (w.extractLsb' 8 24 ≠ 0 ∨ (w.extractLsb' 0 8).toNat = 0x00 ∨ 0x07 ≤ (w.extractLsb' 0 8).toNat)) ∧
    ((∃ i, decode w = .ok i) ∨ (∃ e, decode w = .error e)) ∧
    ∀ s : State, (∃ e, decode w = .error e) →
      hostWrite 0x000 4 w.toNat s = .next { s with code := .errIllegal, fault := true }

/-! ### Steps (spec/10_state.md R20, R25; spec/20_memory.md R59 to R61) -/

/-- R25: a host write of a word to CMD executes the command the word encodes, on the state left once that write is taken
from the pending inputs; and a host read of CMD is a bus error (R58), which the step refuses (R182). The queue of pending
inputs is the model's (log entry 1), and so is the name `writeOnly` of the refusal (log entry 12). -/
def Obligations.StepRunsDecodedCommand : Prop :=
  ∀ (s : State) (rest : List Input),
    (∀ (w : Word) (i : Instr), s.inputs = .write 0x000 4 w.toNat :: rest → decode w = .ok i →
      step s = exec i { s with inputs := rest }) ∧
    (s.inputs = .read 0x000 4 :: rest → step s = .refused (.busError .writeOnly))

/-- The block never acts on its own (R20, R201): with no input pending a step changes nothing (log entry 2). -/
def Obligations.IdleBlockWaits : Prop :=
  ∀ s : State, s.inputs = [] → step s = .next s

/-- R61: accesses take effect one at a time, in program order. A step on a pending host read is that read and a step on a
pending host write is that write, on the state from which that input has been taken; and whatever the oldest input is, a
step that answers a next state leaves the inputs after it pending (the queue is the model's, log entry 1). -/
def Obligations.StepTakesOldestInput : Prop :=
  ∀ (s : State) (rest : List Input),
    (∀ off n, s.inputs = .read off n :: rest → step s = hostRead off n { s with inputs := rest }) ∧
    (∀ off n v, s.inputs = .write off n v :: rest → step s = hostWrite off n v { s with inputs := rest }) ∧
    (∀ x t, s.inputs = x :: rest → step s = .next t → t.inputs = rest)

/-! ### Reset (spec/10_state.md R36; spec/70_reset_and_hazards.md R200, R201) -/

/-- R36: what every register reads after reset, and that the bytes of IN and OUT are free values. -/
def Obligations.ResetValues : Prop :=
  readReg State.reset .prefixIn = some 0 ∧ readReg State.reset .inLen = some 0 ∧ readReg State.reset .status = some 0 ∧
  readReg State.reset .prefixOut = some 0 ∧ readReg State.reset .offset = some 0 ∧ readReg State.reset .cksum = some 0 ∧
  readReg State.reset .outLen = some 0 ∧ readReg State.reset .cap = some (BitVec.ofNat 32 Config.maxPayload) ∧
  (∀ i, inByte State.reset i = Config.inDraw State.reset.resets i) ∧
  (∀ i, (readOut State.reset i).observed = [.byte (Config.outDraw State.reset.draws)])

/-- R200: a reset event puts every register at its value of R36 and leaves every byte of IN a fresh free value, whatever
was there before (the event and the counter are the model's, log entries 7 and 18). -/
def Obligations.ResetEventRestores : Prop :=
  ∀ (s : State) (rest : List Input), s.inputs = .reset :: rest →
    ∃ t, step s = .next t ∧
      (∀ r, readReg t r = readReg State.reset r) ∧ t.mem = [] ∧
      (∀ i, inByte t i = Config.inDraw (s.resets + 1) i) ∧ t.inputs = rest ∧ t.observed = s.observed

/-- R201: a command issued straight after reset runs on the reset values: PACK gives [0x00], CKGEN hashes CTX alone, UNPACK,
CKCHK and FDEC give ERR_SHORT, FENC gives the 3-byte frame of prefix 0 with an empty payload. -/
def Obligations.CommandsAfterReset : Prop :=
  (∃ t, exec .pack State.reset = .next t ∧ t.code = .ok ∧ t.OutIs [0x00]) ∧
  (∃ t, exec .ckgen State.reset = .next t ∧ t.code = .ok ∧ t.ck0 = ck0Of [] ∧ t.ck1 = ck1Of []) ∧
  (∃ t, exec .unpack State.reset = .next t ∧ t.code = .errShort) ∧
  (∃ t, exec .ckchk State.reset = .next t ∧ t.code = .errShort) ∧
  (∃ t, exec .fdec State.reset = .next t ∧ t.code = .errShort) ∧
  (∃ t, exec .fenc State.reset = .next t ∧ t.code = .ok ∧ t.OutIs [0x00, ck0Of [0x00], ck1Of [0x00]])

/-- The invariant holds at reset. -/
def Obligations.ResetStateInv : Prop := State.reset.Inv

/-- Every step keeps the invariant: canonical memory inside its windows, OUT held exactly below OUT_LEN, OUT_LEN ≤ BUF_CAP
(R30), OFFSET never 3 and 0 only while no output has been produced (R28), NONE only with every output at its reset value
(R170). -/
def Obligations.StepKeepsInv : Prop :=
  ∀ s t : State, s.Inv → step s = .next t → t.Inv

/-! ### STATUS (spec/10_state.md R26, R34; spec/60_exceptions.md R170 to R180) -/

/-- R26, R170: a host read of STATUS gives CODE in bits 3:0, as the number R170 gives it, FAULT in bit 8 and 0 in bits 7:4 and
31:9; CODE is at most 0x8. -/
def Obligations.StatusLayout : Prop :=
  ∀ s : State, ∃ w, hostRead 0x004 4 s = .next (s.observe (.word w)) ∧ readReg s .status = some w ∧
    (s.code = .none → w.extractLsb' 0 4 = 0x0) ∧ (s.code = .ok → w.extractLsb' 0 4 = 0x1) ∧
    (s.code = .errShort → w.extractLsb' 0 4 = 0x2) ∧ (s.code = .errTier → w.extractLsb' 0 4 = 0x3) ∧
    (s.code = .errShortTier → w.extractLsb' 0 4 = 0x4) ∧ (s.code = .errChecksum → w.extractLsb' 0 4 = 0x5) ∧
    (s.code = .errPrecond → w.extractLsb' 0 4 = 0x6) ∧ (s.code = .errIllegal → w.extractLsb' 0 4 = 0x7) ∧
    (s.code = .errCapacity → w.extractLsb' 0 4 = 0x8) ∧
    w.extractLsb' 4 4 = 0 ∧ w.getLsbD 8 = s.fault ∧ w.extractLsb' 9 23 = 0 ∧ (w.extractLsb' 0 4).toNat ≤ 8

/-- R170, R176: the codes each command can leave, and that NONE is left by none. -/
def Obligations.CodesRaisedByCommand : Prop :=
  ∀ s t : State,
    (exec .pack s = .next t → t.code ∈ [.ok, .errPrecond]) ∧
    (exec .unpack s = .next t → t.code ∈ [.ok, .errCapacity, .errShort, .errTier, .errShortTier]) ∧
    (exec .ckgen s = .next t → t.code ∈ [.ok, .errCapacity]) ∧
    (exec .ckchk s = .next t → t.code ∈ [.ok, .errCapacity, .errShort, .errChecksum]) ∧
    (exec .fenc s = .next t → t.code ∈ [.ok, .errPrecond, .errCapacity]) ∧
    (exec .fdec s = .next t → t.code ∈ [.ok, .errCapacity, .errShort, .errTier, .errShortTier, .errChecksum])

/-- R180: every write of CMD completes, and one that ends in an error changes CODE, FAULT for ERR_PRECOND and ERR_ILLEGAL, and
nothing else. -/
def Obligations.ErrorsAreAllOrNothing : Prop :=
  ∀ (w : Word) (s : State), ∃ t, runCommand w s = .next t ∧
    (t.code = .ok ∨
      t = { s with code := t.code, fault := s.fault || (t.code == .errPrecond || t.code == .errIllegal) })

/-- R173: a write of CMD sets FAULT exactly when it raises ERR_PRECOND or ERR_ILLEGAL, and never clears it. -/
def Obligations.FaultSetByPrecondAndIllegal : Prop :=
  ∀ (w : Word) (s t : State), runCommand w s = .next t →
    (t.fault = true ↔ s.fault = true ∨ t.code = .errPrecond ∨ t.code = .errIllegal)

/-- R173: only reset clears FAULT; and a step that sets it is a write of CMD that leaves ERR_PRECOND or ERR_ILLEGAL
(the queue that names the input is the model's, log entry 1). -/
def Obligations.FaultIsSticky : Prop :=
  ∀ s t : State, step s = .next t →
    (s.fault = true → t.fault = false → ∃ rest, s.inputs = .reset :: rest) ∧
    (s.fault = false → t.fault = true →
      (t.code = .errPrecond ∨ t.code = .errIllegal) ∧ ∃ w rest, s.inputs = .write 0x000 4 w :: rest)

/-- R34: no command reads STATUS: with other values of CODE and FAULT a command does the same, and FAULT is the only place
where the old value can still be seen. -/
def Obligations.FlagsDoNotSteer : Prop :=
  ∀ (i : Instr) (s : State) (c : Code) (f : Bool), ∃ t, exec i s = .next t ∧
    exec i { s with code := c, fault := f } = .next { t with fault := f || t.code.setsFault }

/-! ### The prefix codec (spec/30_encoding.md R84 to R92; spec/40_prefix_codec.md) -/

/-- R112, with the fields of R85 and R86: PACK writes the prefix bytes to OUT, their number to OUT_LEN and OFFSET, or raises
ERR_PRECOND; it touches neither PREFIX_OUT nor CKSUM nor IN. -/
def Obligations.PackWritesPrefixBytes : Prop :=
  decode 0x00000001 = .ok .pack ∧ ∀ s : State,
    (s.prefixIn.toNat < 64 →
      ∃ t, exec .pack s = .next t ∧ s.EndedOk t ∧ t.OutIs (tier1Bytes s.prefixIn) ∧ t.offset = 1 ∧
        t.prefixOut = s.prefixOut ∧ s.SameCksum t) ∧
    (64 ≤ s.prefixIn.toNat → s.prefixIn.toNat < 16384 →
      ∃ t, exec .pack s = .next t ∧ s.EndedOk t ∧ t.OutIs (tier2Bytes s.prefixIn) ∧ t.offset = 2 ∧
        t.prefixOut = s.prefixOut ∧ s.SameCksum t) ∧
    (16384 ≤ s.prefixIn.toNat → exec .pack s = .next { s with code := .errPrecond, fault := true })

/-- R113, with the fields of R85 and R86: UNPACK by the length and the leading byte, its checks in order; it writes
PREFIX_OUT, OFFSET and STATUS only, and reads no byte from IN[2] on. -/
def Obligations.UnpackReadsPrefix : Prop :=
  decode 0x00000002 = .ok .unpack ∧ ∀ s : State,
    (Config.bufCap < s.inLen.toNat → exec .unpack s = .next { s with code := .errCapacity }) ∧
    (s.inLen.toNat = 0 → exec .unpack s = .next { s with code := .errShort }) ∧
    (1 ≤ s.inLen.toNat → s.inLen.toNat ≤ Config.bufCap → 128 ≤ (inByte s 0).toNat →
      exec .unpack s = .next { s with code := .errTier }) ∧
    (s.inLen.toNat = 1 → 64 ≤ (inByte s 0).toNat → (inByte s 0).toNat < 128 →
      exec .unpack s = .next { s with code := .errShortTier }) ∧
    (1 ≤ s.inLen.toNat → s.inLen.toNat ≤ Config.bufCap → (inByte s 0).toNat < 64 →
      exec .unpack s
        = .next { s with code := .ok, prefixOut := 0b00000000#8 ++ (inByte s 0).extractLsb' 0 6, offset := 1 }) ∧
    (2 ≤ s.inLen.toNat → s.inLen.toNat ≤ Config.bufCap → 64 ≤ (inByte s 0).toNat → (inByte s 0).toNat < 128 →
      exec .unpack s = .next { s with code := .ok, prefixOut := tier2Prefix (inByte s 0) (inByte s 1), offset := 2 })

/-- R114: `unpack(pack(p)) = (p, len(pack(p)))` for every p < 16384. -/
def Obligations.UnpackPackRoundTrip : Prop :=
  ∀ p : Nat, p < 16384 → unpack (pack p) = .ok ⟨p, (pack p).length⟩

/-- R114 with bytes following: `unpack` ignores what stands after the prefix bytes (R111). -/
def Obligations.UnpackIgnoresLaterBytes : Prop :=
  ∀ (p : Nat) (rest : List Byte), p < 16384 → unpack (pack p ++ rest) = .ok ⟨p, (pack p).length⟩

/-- R115: `pack` is injective, its images are the 64 one-byte strings below 0x40 and the tier-2 pairs that are not
non-canonical, and the reverse round trip holds exactly off the non-canonical pairs. -/
def Obligations.PackImages : Prop :=
  (∀ p q : Nat, p < 16384 → q < 16384 → pack p = pack q → p = q) ∧
  (∀ b : Byte, (∃ p, p < 16384 ∧ pack p = [b]) ↔ b.toNat < 64) ∧
  (∀ b0 b1 : Byte, (∃ p, p < 16384 ∧ pack p = [b0, b1]) ↔
    (0x40 ≤ b0.toNat ∧ b0.toNat ≤ 0x7F ∧ ¬ NonCanonical b0 b1)) ∧
  (∀ (bs : List Byte) (u : Unpacked), unpack bs = .ok u →
    (pack u.pfx = bs.take u.off ↔ ¬ ∃ b0 b1 rest, bs = b0 :: b1 :: rest ∧ NonCanonical b0 b1))

/-- R92: a tier-2 pair unpacks to a prefix below 64 exactly when it is non-canonical, its prefix is then
`{b0[3:0]:4, b1[7:6]:2}`, and `unpack` accepts it with offset 2. -/
def Obligations.NonCanonicalPairs : Prop :=
  ∀ (b0 b1 : Byte) (rest : List Byte), 0x40 ≤ b0.toNat → b0.toNat ≤ 0x7F →
    ∃ u, unpack (b0 :: b1 :: rest) = .ok u ∧ u.off = 2 ∧ (u.pfx < 64 ↔ NonCanonical b0 b1) ∧
      (NonCanonical b0 b1 → u.pfx = (b0.extractLsb' 0 4 ++ b1.extractLsb' 6 2 : BitVec 6).toNat)

/-- R117: what `unpack` returns is below 16384, with offset 1 or 2. -/
def Obligations.UnpackResultBounded : Prop :=
  ∀ (bs : List Byte) (u : Unpacked), unpack bs = .ok u → u.pfx < 16384 ∧ (u.off = 1 ∨ u.off = 2) ∧ (u.off = 1 → u.pfx < 64)

/-! ### The checksum engine (spec/41_checksum.md) -/

/-- R133, R130: CKGEN writes digest bytes 0 and 1 of CTX ++ IN[0..IN_LEN) to CKSUM, or raises ERR_CAPACITY. -/
def Obligations.ChecksumGenerated : Prop :=
  decode 0x00000003 = .ok .ckgen ∧ ∀ s : State,
    (s.inLen.toNat ≤ Config.bufCap →
      exec .ckgen s = .next { s with code := .ok, ck0 := ck0Of (message s s.inLen.toNat),
                                     ck1 := ck1Of (message s s.inLen.toNat) }) ∧
    (Config.bufCap < s.inLen.toNat → exec .ckgen s = .next { s with code := .errCapacity })

/-- R134: CKCHK accepts a frame exactly when its last two bytes are the checksum of what stands before them, and then CKSUM
equals those bytes; its checks in order. -/
def Obligations.ChecksumVerified : Prop :=
  decode 0x00000004 = .ok .ckchk ∧ ∀ s : State,
    (Config.bufCap < s.inLen.toNat → exec .ckchk s = .next { s with code := .errCapacity }) ∧
    (s.inLen.toNat < 2 → exec .ckchk s = .next { s with code := .errShort }) ∧
    (2 ≤ s.inLen.toNat → s.inLen.toNat ≤ Config.bufCap →
      (ck0Of (message s (s.inLen.toNat - 2)) ≠ inByte s (s.inLen.toNat - 2) ∨
        ck1Of (message s (s.inLen.toNat - 2)) ≠ inByte s (s.inLen.toNat - 1)) →
      exec .ckchk s = .next { s with code := .errChecksum }) ∧
    (2 ≤ s.inLen.toNat → s.inLen.toNat ≤ Config.bufCap →
      ck0Of (message s (s.inLen.toNat - 2)) = inByte s (s.inLen.toNat - 2) →
      ck1Of (message s (s.inLen.toNat - 2)) = inByte s (s.inLen.toNat - 1) →
      exec .ckchk s = .next { s with code := .ok, ck0 := inByte s (s.inLen.toNat - 2),
                                     ck1 := inByte s (s.inLen.toNat - 1) })

/-! ### Frames (spec/42_frame.md) -/

/-- R152, R151, R130: FENC writes `pack(p) ++ payload ++ checksum` to OUT, its length to OUT_LEN, the prefix length to OFFSET
and the checksum to CKSUM; or raises ERR_PRECOND, then ERR_CAPACITY; it writes neither PREFIX_OUT nor IN. -/
def Obligations.FrameBuilt : Prop :=
  decode 0x00000005 = .ok .fenc ∧ ∀ s : State,
    (16384 ≤ s.prefixIn.toNat → exec .fenc s = .next { s with code := .errPrecond, fault := true }) ∧
    (s.prefixIn.toNat < 16384 → Config.maxPayload < s.inLen.toNat →
      exec .fenc s = .next { s with code := .errCapacity }) ∧
    (s.prefixIn.toNat < 16384 → s.inLen.toNat ≤ Config.maxPayload →
      ∃ t m, exec .fenc s = .next t ∧
        m = (if s.prefixIn.toNat < 64 then tier1Bytes s.prefixIn else tier2Bytes s.prefixIn) ++ message s s.inLen.toNat ∧
        s.EndedOk t ∧ t.OutIs (m ++ [ck0Of m, ck1Of m]) ∧
        t.offset = (if s.prefixIn.toNat < 64 then 1 else 2) ∧ t.ck0 = ck0Of m ∧ t.ck1 = ck1Of m ∧
        t.prefixOut = s.prefixOut)

/-- R154, R150: FDEC's checks in order; and on success the payload in OUT, its length in OUT_LEN, the prefix in PREFIX_OUT, the
offset in OFFSET and the checksum in CKSUM. -/
def Obligations.FrameDecoded : Prop :=
  decode 0x00000006 = .ok .fdec ∧ ∀ (s : State) (n : Nat), s.inLen.toNat = n →
    (Config.bufCap < n → exec .fdec s = .next { s with code := .errCapacity }) ∧
    (n < 3 → exec .fdec s = .next { s with code := .errShort }) ∧
    (3 ≤ n → n ≤ Config.bufCap → 128 ≤ (inByte s 0).toNat → exec .fdec s = .next { s with code := .errTier }) ∧
    (n = 3 → 64 ≤ (inByte s 0).toNat → (inByte s 0).toNat < 128 →
      exec .fdec s = .next { s with code := .errShortTier }) ∧
    (3 ≤ n → n ≤ Config.bufCap → ((inByte s 0).toNat < 64 ∨ ((inByte s 0).toNat < 128 ∧ 4 ≤ n)) →
      (ck0Of (message s (n - 2)) ≠ inByte s (n - 2) ∨ ck1Of (message s (n - 2)) ≠ inByte s (n - 1)) →
      exec .fdec s = .next { s with code := .errChecksum }) ∧
    (3 ≤ n → n ≤ Config.bufCap → (inByte s 0).toNat < 64 →
      ck0Of (message s (n - 2)) = inByte s (n - 2) → ck1Of (message s (n - 2)) = inByte s (n - 1) →
      Config.maxPayload < n - 3 → exec .fdec s = .next { s with code := .errCapacity }) ∧
    (3 ≤ n → n ≤ Config.bufCap → (inByte s 0).toNat < 64 →
      ck0Of (message s (n - 2)) = inByte s (n - 2) → ck1Of (message s (n - 2)) = inByte s (n - 1) →
      n - 3 ≤ Config.maxPayload →
      ∃ t, exec .fdec s = .next t ∧ s.EndedOk t ∧ t.OutIs ((message s (n - 2)).drop 1) ∧
        t.prefixOut = 0b00000000#8 ++ (inByte s 0).extractLsb' 0 6 ∧ t.offset = 1 ∧
        t.ck0 = inByte s (n - 2) ∧ t.ck1 = inByte s (n - 1)) ∧
    (4 ≤ n → n ≤ Config.bufCap → 64 ≤ (inByte s 0).toNat → (inByte s 0).toNat < 128 →
      ck0Of (message s (n - 2)) = inByte s (n - 2) → ck1Of (message s (n - 2)) = inByte s (n - 1) →
      ∃ t, exec .fdec s = .next t ∧ s.EndedOk t ∧ t.OutIs ((message s (n - 2)).drop 2) ∧
        t.prefixOut = tier2Prefix (inByte s 0) (inByte s 1) ∧ t.offset = 2 ∧
        t.ck0 = inByte s (n - 2) ∧ t.ck1 = inByte s (n - 1))

/-- R89: the layout and the length of the frame of a prefix and a payload. -/
def Obligations.FrameLayout : Prop :=
  ∀ (p : Nat) (P : List Byte), p < 16384 →
    ∃ off, off = (pack p).length ∧ (off = if p < 64 then 1 else 2) ∧
      (frameEncode p P).length = off + P.length + 2 ∧
      (∀ i, i < off → (frameEncode p P)[i]? = (pack p)[i]?) ∧
      (∀ j, j < P.length → (frameEncode p P)[off + j]? = P[j]?) ∧
      (frameEncode p P)[off + P.length]? = some (ck0Of (pack p ++ P)) ∧
      (frameEncode p P)[off + P.length + 1]? = some (ck1Of (pack p ++ P))

/-- R155: `frame_decode(frame_encode(p, P)) = (p, len(pack(p)), P, checksum(pack(p) ++ P))`, for every digest. -/
def Obligations.FrameRoundTrip : Prop :=
  ∀ (p : Nat) (P : List Byte), p < 16384 →
    frameDecode (frameEncode p P) = .ok ⟨p, (pack p).length, P, (ck0Of (pack p ++ P), ck1Of (pack p ++ P))⟩

/-- R155 at command level: FENC, then its OUT copied to IN with IN_LEN = OUT_LEN, then FDEC, gives back the prefix and the
payload with CODE = OK, for every digest; and CKCHK accepts the same bytes. The second state is any state whose IN holds the
copy. -/
def Obligations.FencThenFdecReturnsAddress : Prop :=
  ∀ s t u : State, s.prefixIn.toNat < 16384 → s.inLen.toNat ≤ Config.maxPayload → exec .fenc s = .next t →
    u.inLen = t.outLen → (∀ i, i < t.outLen.toNat → t.mem.read (outBase + i) = some (inByte u i)) →
    (∃ v, exec .fdec u = .next v ∧ v.code = .ok ∧ readReg v .prefixOut = some s.prefixIn ∧
      v.OutIs (message s s.inLen.toNat) ∧ v.offset = t.offset ∧ v.ck0 = t.ck0 ∧ v.ck1 = t.ck1) ∧
    (∃ v, exec .ckchk u = .next v ∧ v.code = .ok ∧ v.ck0 = t.ck0 ∧ v.ck1 = t.ck1)

/-- R156: FENC's outputs depend on PREFIX_IN, IN_LEN and IN[0..IN_LEN) alone, whatever state the block was in. -/
def Obligations.FencDeterministic : Prop :=
  ∀ s s' t t' : State, s.prefixIn = s'.prefixIn → s.inLen = s'.inLen →
    (∀ i, i < s.inLen.toNat → inByte s i = inByte s' i) →
    s.prefixIn.toNat < 16384 → s.inLen.toNat ≤ Config.maxPayload →
    exec .fenc s = .next t → exec .fenc s' = .next t' →
    t.outLen = t'.outLen ∧ t.offset = t'.offset ∧ t.ck0 = t'.ck0 ∧ t.ck1 = t'.ck1 ∧
      ∀ i, i < t.outLen.toNat → t.mem.read (outBase + i) = t'.mem.read (outBase + i) ∧
        (t.mem.read (outBase + i)).isSome

/-- R135, for every digest: a byte string of a canonical frame's length that differs from it anywhere (in one bit before the
checksum, for one) never decodes to the frame's own prefix and payload. -/
def Obligations.AlteredFrameNeverDecodesToOriginal : Prop :=
  ∀ (p : Nat) (P F' : List Byte), p < 16384 → F'.length = (frameEncode p P).length → F' ≠ frameEncode p P →
    ∀ d, frameDecode F' = .ok d → ¬ (d.pfx = p ∧ d.payload = P)

/-! ### What a command leaves unchanged, and what it may read (spec/10_state.md R32, R38; spec/30_encoding.md R83) -/

/-- R38: which command leaves which state unchanged. No command writes PREFIX_IN, IN_LEN, IN or CAP; PACK leaves PREFIX_OUT
and CKSUM, UNPACK leaves CKSUM, OUT_LEN and OUT, CKGEN and CKCHK leave PREFIX_OUT, OFFSET, OUT_LEN and OUT, FENC leaves
PREFIX_OUT. No command writes a byte outside the OUT page. -/
def Obligations.CommandFrames : Prop :=
  ∀ s t : State,
    (∀ i, exec i s = .next t → s.SameInputs t ∧ (∀ k, k < pageSize → inByte t k = inByte s k) ∧
      readReg t .cap = readReg s .cap) ∧
    (exec .pack s = .next t → t.prefixOut = s.prefixOut ∧ s.SameCksum t) ∧
    (exec .unpack s = .next t → s.SameCksum t ∧ s.SameOut t) ∧
    (exec .ckgen s = .next t → t.prefixOut = s.prefixOut ∧ t.offset = s.offset ∧ s.SameOut t) ∧
    (exec .ckchk s = .next t → t.prefixOut = s.prefixOut ∧ t.offset = s.offset ∧ s.SameOut t) ∧
    (exec .fenc s = .next t → t.prefixOut = s.prefixOut)

/-- R65: after a command has stored a byte string in OUT, no byte of OUT at an index ≥ OUT_LEN keeps an older value (the model
drops them, log entry 8). -/
def Obligations.OldOutBytesAreDropped : Prop :=
  ∀ (i : Instr) (s t : State), i = .pack ∨ i = .fenc ∨ i = .fdec → exec i s = .next t → t.code = .ok →
    ∀ k, t.outLen.toNat ≤ k → k < pageSize → t.mem.read (outBase + k) = none

/-- R83, R32, R65, R66: a command reads its own operands and nothing else. Two states that agree on the operands R83 gives that
command and on the output registers, but not on its other inputs, on the rest of IN, on OUT, on the pending inputs or on the
free values, end with equal STATUS and output registers, and either both keep their OUT or both store the same bytes. -/
def Obligations.CommandsReadOnlyTheirOperands : Prop :=
  ∀ (i : Instr) (s s' : State), SameOperands i s s' → s.SameOutputs s' →
    ∃ t t', exec i s = .next t ∧ exec i s' = .next t' ∧ t.SameOutputs t' ∧
      (∀ r, r ≠ .prefixIn → r ≠ .inLen → readReg t r = readReg t' r) ∧
      ((s.SameOut t ∧ s'.SameOut t') ∨ ∃ bs, t.OutIs bs ∧ t'.OutIs bs)

/-! ### The bus (spec/20_memory.md R50 to R66; spec/60_exceptions.md R182) -/

/-- R182 with R53, R57 and R58: inside the window, a read is answered exactly at the eight readable registers as 4 aligned
bytes and at the bytes of IN and OUT, a write of a value that fits exactly at CMD, PREFIX_IN, IN_LEN and the bytes of IN, and
every other access is a bus error, refused without a next state. -/
def Obligations.BusErrorsExactly : Prop :=
  ∀ (s : State) (off n v : Nat), off < 0x4000 → v < 2 ^ (8 * n) →
    let inWindow := ∃ i, i < Config.bufCap ∧ off = 0x1000 + i
    let outWindow := ∃ i, i < Config.bufCap ∧ off = 0x2000 + i
    let readable := (n = 4 ∧ off ∈ [0x004, 0x008, 0x00C, 0x010, 0x014, 0x018, 0x01C, 0x020]) ∨
      (n = 1 ∧ (inWindow ∨ outWindow))
    let writable := (n = 4 ∧ off ∈ [0x000, 0x008, 0x00C]) ∨ (n = 1 ∧ inWindow)
    (readable → ∃ t, hostRead off n s = .next t) ∧ (¬ readable → ∃ e, hostRead off n s = .refused (.busError e)) ∧
    (writable → ∃ t, hostWrite off n v s = .next t) ∧ (¬ writable → ∃ e, hostWrite off n v s = .refused (.busError e))

/-- R37, R26 to R31: what a host read of each readable register returns; a read changes nothing but the model's record of what
was read (log entry 3). -/
def Obligations.HostReadsRegisters : Prop :=
  ∀ s : State,
    hostRead 0x004 4 s = .next (s.observe (.word (statusWord s.code s.fault))) ∧
    hostRead 0x008 4 s = .next (s.observe (.word s.prefixIn)) ∧
    hostRead 0x00C 4 s = .next (s.observe (.word s.inLen)) ∧
    hostRead 0x010 4 s = .next (s.observe (.word (s.prefixOut.setWidth 32))) ∧
    hostRead 0x014 4 s = .next (s.observe (.word (s.offset.setWidth 32))) ∧
    hostRead 0x018 4 s = .next (s.observe (.word (s.ck0.setWidth 32 ||| (s.ck1.setWidth 32 <<< 8)))) ∧
    hostRead 0x01C 4 s = .next (s.observe (.word s.outLen)) ∧
    hostRead 0x020 4 s = .next (s.observe (.word (BitVec.ofNat 32 Config.maxPayload)))

/-- R23, R24: all 32 bits written to PREFIX_IN or IN_LEN are stored, nothing else changes, and they read back as written. -/
def Obligations.HostWritesRegisters : Prop :=
  ∀ (s : State) (w : Word),
    (hostWrite 0x008 4 w.toNat s = .next { s with prefixIn := w }) ∧
    (hostWrite 0x00C 4 w.toNat s = .next { s with inLen := w }) ∧
    (∀ t, hostWrite 0x008 4 w.toNat s = .next t → hostRead 0x008 4 t = .next (t.observe (.word w))) ∧
    (∀ t, hostWrite 0x00C 4 w.toNat s = .next t → hostRead 0x00C 4 t = .next (t.observe (.word w)))

/-- R66: IN[i] reads back the last byte written, whatever IN_LEN holds; every other byte and register is unchanged; a byte not
written since reset reads as its draw of that reset. -/
def Obligations.InByteReadsBack : Prop :=
  ∀ (s : State) (i : Nat), i < Config.bufCap →
    (∀ b : Byte, ∃ t, hostWrite (0x1000 + i) 1 b.toNat s = .next t ∧
      hostRead (0x1000 + i) 1 t = .next (t.observe (.byte b)) ∧
      (∀ a, a ≠ 0x1000 + i → t.mem.read a = s.mem.read a) ∧ t = { s with mem := t.mem }) ∧
    (s.mem.read (0x1000 + i) = none →
      hostRead (0x1000 + i) 1 s = .next (s.observe (.byte (Config.inDraw s.resets i))))

/-- R33, R65: a read of OUT[i] below OUT_LEN returns the stored byte; at or above OUT_LEN it returns a free value, a new one each
time. The invariant, which every step keeps, rules out states whose OUT lacks a byte below OUT_LEN. -/
def Obligations.OutByteReads : Prop :=
  ∀ (s : State) (i : Nat), s.Inv → i < Config.bufCap →
    (i < s.outLen.toNat → ∃ b, s.mem.read (0x2000 + i) = some b ∧
      hostRead (0x2000 + i) 1 s = .next (s.observe (.byte b))) ∧
    (s.outLen.toNat ≤ i →
      hostRead (0x2000 + i) 1 s
        = .next { s with observed := s.observed ++ [.byte (Config.outDraw s.draws)], draws := s.draws + 1 })

/-- R59: a read stores nothing and runs nothing, and two reads in a row return the same value, but for OUT at an index
≥ OUT_LEN, which may return any value each time (the record of reads and the counter of draws are the model's, log entries 3
and 8). -/
def Obligations.ReadsHaveNoSideEffect : Prop :=
  ∀ (off n : Nat) (s t : State), hostRead off n s = .next t →
    ∃ o, t = { s with observed := s.observed ++ [o], draws := t.draws } ∧
      ((∀ i, off = 0x2000 + i → i < s.outLen.toNat) → s.Inv →
        t.draws = s.draws ∧ hostRead off n t = .next { t with observed := t.observed ++ [o] })

/-- R31, R6: CAP reads MAX_PAYLOAD, which lies in 32 to 4092, and BUF_CAP is 4 more. -/
def Obligations.CapReadsMaxPayload : Prop :=
  ∀ s : State, ∃ w, readReg s .cap = some w ∧ w.toNat = Config.maxPayload ∧ 32 ≤ Config.maxPayload ∧
    Config.maxPayload ≤ 4092 ∧ Config.bufCap = Config.maxPayload + 4

/-- R50: host address BLOCK_BASE + off reaches offset off of the 16 KiB window, which is 16 KiB aligned; an address outside the
window does not reach the block. -/
def Obligations.AddressesReachOffsets : Prop :=
  Config.blockBase % 0x4000 = 0 ∧
  ∀ (s : State) (n v : Nat),
    (∀ off, off < 0x4000 → memRead (Config.blockBase + off) n s = hostRead off n s ∧
      memWrite (Config.blockBase + off) n v s = hostWrite off n v s) ∧
    (∀ addr, addr < Config.blockBase ∨ Config.blockBase + 0x4000 ≤ addr →
      memRead addr n s = .refused .outsideWindow ∧ memWrite addr n v s = .refused .outsideWindow)

/-- R28, R203: once OFFSET is not 0 it stays 1 or 2 until a reset (the queue that names the reset is the model's, log
entry 1). -/
def Obligations.OffsetStaysSet : Prop :=
  ∀ s t : State, s.offset = 1 ∨ s.offset = 2 → step s = .next t →
    (t.offset = 1 ∨ t.offset = 2) ∨ ∃ rest, s.inputs = .reset :: rest

/-- R94: LOADIN of at most BUF_CAP bytes, run access by access, leaves exactly these bytes in IN[0..k) and k in IN_LEN, and
changes no other byte of IN and no other register (the queue is the model's, log entry 1). -/
def Obligations.LoadInFillsBuffer : Prop :=
  ∀ (s : State) (bs : List Byte) (rest : List Input), bs.length ≤ Config.bufCap → s.inputs = loadIn bs ++ rest →
    ∃ t, Host.Core.run Sys2Proof.core (bs.length + 1) s = .next t ∧ t.inputs = rest ∧
      t.inLen.toNat = bs.length ∧ message t bs.length = bs ∧ (∀ i, bs.length ≤ i → inByte t i = inByte s i) ∧
      t = { s with inLen := t.inLen, mem := t.mem, inputs := rest }
end

