-- ==== Sys2Proof/Laws/State.lean ====
section
/-! SUPPORT. What each state operation does to each field of State: one lemma per field and operation, true by definition,
so that no later proof unfolds a record update. The reset values follow, field by field. -/

namespace Sys2Proof.Machine

section Fields

variable (s : State)

/-! ### State.setIn -/

@[simp] theorem State.setIn_prefixIn (i : Nat) (b : Byte) : (s.setIn i b).prefixIn = s.prefixIn := rfl
@[simp] theorem State.setIn_inLen (i : Nat) (b : Byte) : (s.setIn i b).inLen = s.inLen := rfl
@[simp] theorem State.setIn_code (i : Nat) (b : Byte) : (s.setIn i b).code = s.code := rfl
@[simp] theorem State.setIn_fault (i : Nat) (b : Byte) : (s.setIn i b).fault = s.fault := rfl
@[simp] theorem State.setIn_prefixOut (i : Nat) (b : Byte) : (s.setIn i b).prefixOut = s.prefixOut := rfl
@[simp] theorem State.setIn_offset (i : Nat) (b : Byte) : (s.setIn i b).offset = s.offset := rfl
@[simp] theorem State.setIn_ck0 (i : Nat) (b : Byte) : (s.setIn i b).ck0 = s.ck0 := rfl
@[simp] theorem State.setIn_ck1 (i : Nat) (b : Byte) : (s.setIn i b).ck1 = s.ck1 := rfl
@[simp] theorem State.setIn_outLen (i : Nat) (b : Byte) : (s.setIn i b).outLen = s.outLen := rfl
@[simp] theorem State.setIn_mem (i : Nat) (b : Byte) : (s.setIn i b).mem = s.mem.write (inBase + i) b := rfl
@[simp] theorem State.setIn_inputs (i : Nat) (b : Byte) : (s.setIn i b).inputs = s.inputs := rfl
@[simp] theorem State.setIn_observed (i : Nat) (b : Byte) : (s.setIn i b).observed = s.observed := rfl
@[simp] theorem State.setIn_resets (i : Nat) (b : Byte) : (s.setIn i b).resets = s.resets := rfl
@[simp] theorem State.setIn_draws (i : Nat) (b : Byte) : (s.setIn i b).draws = s.draws := rfl

/-! ### State.storeOut -/

@[simp] theorem State.storeOut_prefixIn (bs : List Byte) : (s.storeOut bs).prefixIn = s.prefixIn := rfl
@[simp] theorem State.storeOut_inLen (bs : List Byte) : (s.storeOut bs).inLen = s.inLen := rfl
@[simp] theorem State.storeOut_code (bs : List Byte) : (s.storeOut bs).code = s.code := rfl
@[simp] theorem State.storeOut_fault (bs : List Byte) : (s.storeOut bs).fault = s.fault := rfl
@[simp] theorem State.storeOut_prefixOut (bs : List Byte) : (s.storeOut bs).prefixOut = s.prefixOut := rfl
@[simp] theorem State.storeOut_offset (bs : List Byte) : (s.storeOut bs).offset = s.offset := rfl
@[simp] theorem State.storeOut_ck0 (bs : List Byte) : (s.storeOut bs).ck0 = s.ck0 := rfl
@[simp] theorem State.storeOut_ck1 (bs : List Byte) : (s.storeOut bs).ck1 = s.ck1 := rfl
@[simp] theorem State.storeOut_outLen (bs : List Byte) : (s.storeOut bs).outLen = BitVec.ofNat 32 bs.length := rfl
@[simp] theorem State.storeOut_mem (bs : List Byte) : (s.storeOut bs).mem = (s.mem.clear outBase pageSize).writes outBase bs := rfl
@[simp] theorem State.storeOut_inputs (bs : List Byte) : (s.storeOut bs).inputs = s.inputs := rfl
@[simp] theorem State.storeOut_observed (bs : List Byte) : (s.storeOut bs).observed = s.observed := rfl
@[simp] theorem State.storeOut_resets (bs : List Byte) : (s.storeOut bs).resets = s.resets := rfl
@[simp] theorem State.storeOut_draws (bs : List Byte) : (s.storeOut bs).draws = s.draws := rfl

/-! ### State.setPrefixIn -/

@[simp] theorem State.setPrefixIn_prefixIn (w : Word) : (s.setPrefixIn w).prefixIn = w := rfl
@[simp] theorem State.setPrefixIn_inLen (w : Word) : (s.setPrefixIn w).inLen = s.inLen := rfl
@[simp] theorem State.setPrefixIn_code (w : Word) : (s.setPrefixIn w).code = s.code := rfl
@[simp] theorem State.setPrefixIn_fault (w : Word) : (s.setPrefixIn w).fault = s.fault := rfl
@[simp] theorem State.setPrefixIn_prefixOut (w : Word) : (s.setPrefixIn w).prefixOut = s.prefixOut := rfl
@[simp] theorem State.setPrefixIn_offset (w : Word) : (s.setPrefixIn w).offset = s.offset := rfl
@[simp] theorem State.setPrefixIn_ck0 (w : Word) : (s.setPrefixIn w).ck0 = s.ck0 := rfl
@[simp] theorem State.setPrefixIn_ck1 (w : Word) : (s.setPrefixIn w).ck1 = s.ck1 := rfl
@[simp] theorem State.setPrefixIn_outLen (w : Word) : (s.setPrefixIn w).outLen = s.outLen := rfl
@[simp] theorem State.setPrefixIn_mem (w : Word) : (s.setPrefixIn w).mem = s.mem := rfl
@[simp] theorem State.setPrefixIn_inputs (w : Word) : (s.setPrefixIn w).inputs = s.inputs := rfl
@[simp] theorem State.setPrefixIn_observed (w : Word) : (s.setPrefixIn w).observed = s.observed := rfl
@[simp] theorem State.setPrefixIn_resets (w : Word) : (s.setPrefixIn w).resets = s.resets := rfl
@[simp] theorem State.setPrefixIn_draws (w : Word) : (s.setPrefixIn w).draws = s.draws := rfl

/-! ### State.setInLen -/

@[simp] theorem State.setInLen_prefixIn (w : Word) : (s.setInLen w).prefixIn = s.prefixIn := rfl
@[simp] theorem State.setInLen_inLen (w : Word) : (s.setInLen w).inLen = w := rfl
@[simp] theorem State.setInLen_code (w : Word) : (s.setInLen w).code = s.code := rfl
@[simp] theorem State.setInLen_fault (w : Word) : (s.setInLen w).fault = s.fault := rfl
@[simp] theorem State.setInLen_prefixOut (w : Word) : (s.setInLen w).prefixOut = s.prefixOut := rfl
@[simp] theorem State.setInLen_offset (w : Word) : (s.setInLen w).offset = s.offset := rfl
@[simp] theorem State.setInLen_ck0 (w : Word) : (s.setInLen w).ck0 = s.ck0 := rfl
@[simp] theorem State.setInLen_ck1 (w : Word) : (s.setInLen w).ck1 = s.ck1 := rfl
@[simp] theorem State.setInLen_outLen (w : Word) : (s.setInLen w).outLen = s.outLen := rfl
@[simp] theorem State.setInLen_mem (w : Word) : (s.setInLen w).mem = s.mem := rfl
@[simp] theorem State.setInLen_inputs (w : Word) : (s.setInLen w).inputs = s.inputs := rfl
@[simp] theorem State.setInLen_observed (w : Word) : (s.setInLen w).observed = s.observed := rfl
@[simp] theorem State.setInLen_resets (w : Word) : (s.setInLen w).resets = s.resets := rfl
@[simp] theorem State.setInLen_draws (w : Word) : (s.setInLen w).draws = s.draws := rfl

/-! ### State.setPrefixOut -/

@[simp] theorem State.setPrefixOut_prefixIn (p : Nat) : (s.setPrefixOut p).prefixIn = s.prefixIn := rfl
@[simp] theorem State.setPrefixOut_inLen (p : Nat) : (s.setPrefixOut p).inLen = s.inLen := rfl
@[simp] theorem State.setPrefixOut_code (p : Nat) : (s.setPrefixOut p).code = s.code := rfl
@[simp] theorem State.setPrefixOut_fault (p : Nat) : (s.setPrefixOut p).fault = s.fault := rfl
@[simp] theorem State.setPrefixOut_prefixOut (p : Nat) : (s.setPrefixOut p).prefixOut = BitVec.ofNat 14 p := rfl
@[simp] theorem State.setPrefixOut_offset (p : Nat) : (s.setPrefixOut p).offset = s.offset := rfl
@[simp] theorem State.setPrefixOut_ck0 (p : Nat) : (s.setPrefixOut p).ck0 = s.ck0 := rfl
@[simp] theorem State.setPrefixOut_ck1 (p : Nat) : (s.setPrefixOut p).ck1 = s.ck1 := rfl
@[simp] theorem State.setPrefixOut_outLen (p : Nat) : (s.setPrefixOut p).outLen = s.outLen := rfl
@[simp] theorem State.setPrefixOut_mem (p : Nat) : (s.setPrefixOut p).mem = s.mem := rfl
@[simp] theorem State.setPrefixOut_inputs (p : Nat) : (s.setPrefixOut p).inputs = s.inputs := rfl
@[simp] theorem State.setPrefixOut_observed (p : Nat) : (s.setPrefixOut p).observed = s.observed := rfl
@[simp] theorem State.setPrefixOut_resets (p : Nat) : (s.setPrefixOut p).resets = s.resets := rfl
@[simp] theorem State.setPrefixOut_draws (p : Nat) : (s.setPrefixOut p).draws = s.draws := rfl

/-! ### State.setOffset -/

@[simp] theorem State.setOffset_prefixIn (n : Nat) : (s.setOffset n).prefixIn = s.prefixIn := rfl
@[simp] theorem State.setOffset_inLen (n : Nat) : (s.setOffset n).inLen = s.inLen := rfl
@[simp] theorem State.setOffset_code (n : Nat) : (s.setOffset n).code = s.code := rfl
@[simp] theorem State.setOffset_fault (n : Nat) : (s.setOffset n).fault = s.fault := rfl
@[simp] theorem State.setOffset_prefixOut (n : Nat) : (s.setOffset n).prefixOut = s.prefixOut := rfl
@[simp] theorem State.setOffset_offset (n : Nat) : (s.setOffset n).offset = BitVec.ofNat 2 n := rfl
@[simp] theorem State.setOffset_ck0 (n : Nat) : (s.setOffset n).ck0 = s.ck0 := rfl
@[simp] theorem State.setOffset_ck1 (n : Nat) : (s.setOffset n).ck1 = s.ck1 := rfl
@[simp] theorem State.setOffset_outLen (n : Nat) : (s.setOffset n).outLen = s.outLen := rfl
@[simp] theorem State.setOffset_mem (n : Nat) : (s.setOffset n).mem = s.mem := rfl
@[simp] theorem State.setOffset_inputs (n : Nat) : (s.setOffset n).inputs = s.inputs := rfl
@[simp] theorem State.setOffset_observed (n : Nat) : (s.setOffset n).observed = s.observed := rfl
@[simp] theorem State.setOffset_resets (n : Nat) : (s.setOffset n).resets = s.resets := rfl
@[simp] theorem State.setOffset_draws (n : Nat) : (s.setOffset n).draws = s.draws := rfl

/-! ### State.setCksum -/

@[simp] theorem State.setCksum_prefixIn (c : Byte × Byte) : (s.setCksum c).prefixIn = s.prefixIn := rfl
@[simp] theorem State.setCksum_inLen (c : Byte × Byte) : (s.setCksum c).inLen = s.inLen := rfl
@[simp] theorem State.setCksum_code (c : Byte × Byte) : (s.setCksum c).code = s.code := rfl
@[simp] theorem State.setCksum_fault (c : Byte × Byte) : (s.setCksum c).fault = s.fault := rfl
@[simp] theorem State.setCksum_prefixOut (c : Byte × Byte) : (s.setCksum c).prefixOut = s.prefixOut := rfl
@[simp] theorem State.setCksum_offset (c : Byte × Byte) : (s.setCksum c).offset = s.offset := rfl
@[simp] theorem State.setCksum_ck0 (c : Byte × Byte) : (s.setCksum c).ck0 = c.1 := rfl
@[simp] theorem State.setCksum_ck1 (c : Byte × Byte) : (s.setCksum c).ck1 = c.2 := rfl
@[simp] theorem State.setCksum_outLen (c : Byte × Byte) : (s.setCksum c).outLen = s.outLen := rfl
@[simp] theorem State.setCksum_mem (c : Byte × Byte) : (s.setCksum c).mem = s.mem := rfl
@[simp] theorem State.setCksum_inputs (c : Byte × Byte) : (s.setCksum c).inputs = s.inputs := rfl
@[simp] theorem State.setCksum_observed (c : Byte × Byte) : (s.setCksum c).observed = s.observed := rfl
@[simp] theorem State.setCksum_resets (c : Byte × Byte) : (s.setCksum c).resets = s.resets := rfl
@[simp] theorem State.setCksum_draws (c : Byte × Byte) : (s.setCksum c).draws = s.draws := rfl

/-! ### finish -/

@[simp] theorem finish_prefixIn : (finish s).prefixIn = s.prefixIn := rfl
@[simp] theorem finish_inLen : (finish s).inLen = s.inLen := rfl
@[simp] theorem finish_code : (finish s).code = .ok := rfl
@[simp] theorem finish_fault : (finish s).fault = s.fault := rfl
@[simp] theorem finish_prefixOut : (finish s).prefixOut = s.prefixOut := rfl
@[simp] theorem finish_offset : (finish s).offset = s.offset := rfl
@[simp] theorem finish_ck0 : (finish s).ck0 = s.ck0 := rfl
@[simp] theorem finish_ck1 : (finish s).ck1 = s.ck1 := rfl
@[simp] theorem finish_outLen : (finish s).outLen = s.outLen := rfl
@[simp] theorem finish_mem : (finish s).mem = s.mem := rfl
@[simp] theorem finish_inputs : (finish s).inputs = s.inputs := rfl
@[simp] theorem finish_observed : (finish s).observed = s.observed := rfl
@[simp] theorem finish_resets : (finish s).resets = s.resets := rfl
@[simp] theorem finish_draws : (finish s).draws = s.draws := rfl

/-! ### raiseError -/

@[simp] theorem raiseError_prefixIn (c : Code) : (raiseError c s).prefixIn = s.prefixIn := rfl
@[simp] theorem raiseError_inLen (c : Code) : (raiseError c s).inLen = s.inLen := rfl
@[simp] theorem raiseError_code (c : Code) : (raiseError c s).code = c := rfl
@[simp] theorem raiseError_fault (c : Code) : (raiseError c s).fault = (s.fault || c.setsFault) := rfl
@[simp] theorem raiseError_prefixOut (c : Code) : (raiseError c s).prefixOut = s.prefixOut := rfl
@[simp] theorem raiseError_offset (c : Code) : (raiseError c s).offset = s.offset := rfl
@[simp] theorem raiseError_ck0 (c : Code) : (raiseError c s).ck0 = s.ck0 := rfl
@[simp] theorem raiseError_ck1 (c : Code) : (raiseError c s).ck1 = s.ck1 := rfl
@[simp] theorem raiseError_outLen (c : Code) : (raiseError c s).outLen = s.outLen := rfl
@[simp] theorem raiseError_mem (c : Code) : (raiseError c s).mem = s.mem := rfl
@[simp] theorem raiseError_inputs (c : Code) : (raiseError c s).inputs = s.inputs := rfl
@[simp] theorem raiseError_observed (c : Code) : (raiseError c s).observed = s.observed := rfl
@[simp] theorem raiseError_resets (c : Code) : (raiseError c s).resets = s.resets := rfl
@[simp] theorem raiseError_draws (c : Code) : (raiseError c s).draws = s.draws := rfl

/-! ### State.observe -/

@[simp] theorem State.observe_prefixIn (o : Observation) : (s.observe o).prefixIn = s.prefixIn := rfl
@[simp] theorem State.observe_inLen (o : Observation) : (s.observe o).inLen = s.inLen := rfl
@[simp] theorem State.observe_code (o : Observation) : (s.observe o).code = s.code := rfl
@[simp] theorem State.observe_fault (o : Observation) : (s.observe o).fault = s.fault := rfl
@[simp] theorem State.observe_prefixOut (o : Observation) : (s.observe o).prefixOut = s.prefixOut := rfl
@[simp] theorem State.observe_offset (o : Observation) : (s.observe o).offset = s.offset := rfl
@[simp] theorem State.observe_ck0 (o : Observation) : (s.observe o).ck0 = s.ck0 := rfl
@[simp] theorem State.observe_ck1 (o : Observation) : (s.observe o).ck1 = s.ck1 := rfl
@[simp] theorem State.observe_outLen (o : Observation) : (s.observe o).outLen = s.outLen := rfl
@[simp] theorem State.observe_mem (o : Observation) : (s.observe o).mem = s.mem := rfl
@[simp] theorem State.observe_inputs (o : Observation) : (s.observe o).inputs = s.inputs := rfl
@[simp] theorem State.observe_observed (o : Observation) : (s.observe o).observed = s.observed ++ [o] := rfl
@[simp] theorem State.observe_resets (o : Observation) : (s.observe o).resets = s.resets := rfl
@[simp] theorem State.observe_draws (o : Observation) : (s.observe o).draws = s.draws := rfl

/-! ### State.countDraw -/

@[simp] theorem State.countDraw_prefixIn : (s.countDraw).prefixIn = s.prefixIn := rfl
@[simp] theorem State.countDraw_inLen : (s.countDraw).inLen = s.inLen := rfl
@[simp] theorem State.countDraw_code : (s.countDraw).code = s.code := rfl
@[simp] theorem State.countDraw_fault : (s.countDraw).fault = s.fault := rfl
@[simp] theorem State.countDraw_prefixOut : (s.countDraw).prefixOut = s.prefixOut := rfl
@[simp] theorem State.countDraw_offset : (s.countDraw).offset = s.offset := rfl
@[simp] theorem State.countDraw_ck0 : (s.countDraw).ck0 = s.ck0 := rfl
@[simp] theorem State.countDraw_ck1 : (s.countDraw).ck1 = s.ck1 := rfl
@[simp] theorem State.countDraw_outLen : (s.countDraw).outLen = s.outLen := rfl
@[simp] theorem State.countDraw_mem : (s.countDraw).mem = s.mem := rfl
@[simp] theorem State.countDraw_inputs : (s.countDraw).inputs = s.inputs := rfl
@[simp] theorem State.countDraw_observed : (s.countDraw).observed = s.observed := rfl
@[simp] theorem State.countDraw_resets : (s.countDraw).resets = s.resets := rfl
@[simp] theorem State.countDraw_draws : (s.countDraw).draws = s.draws + 1 := rfl

/-! ### State.setInputs -/

@[simp] theorem State.setInputs_prefixIn (rest : List Input) : (s.setInputs rest).prefixIn = s.prefixIn := rfl
@[simp] theorem State.setInputs_inLen (rest : List Input) : (s.setInputs rest).inLen = s.inLen := rfl
@[simp] theorem State.setInputs_code (rest : List Input) : (s.setInputs rest).code = s.code := rfl
@[simp] theorem State.setInputs_fault (rest : List Input) : (s.setInputs rest).fault = s.fault := rfl
@[simp] theorem State.setInputs_prefixOut (rest : List Input) : (s.setInputs rest).prefixOut = s.prefixOut := rfl
@[simp] theorem State.setInputs_offset (rest : List Input) : (s.setInputs rest).offset = s.offset := rfl
@[simp] theorem State.setInputs_ck0 (rest : List Input) : (s.setInputs rest).ck0 = s.ck0 := rfl
@[simp] theorem State.setInputs_ck1 (rest : List Input) : (s.setInputs rest).ck1 = s.ck1 := rfl
@[simp] theorem State.setInputs_outLen (rest : List Input) : (s.setInputs rest).outLen = s.outLen := rfl
@[simp] theorem State.setInputs_mem (rest : List Input) : (s.setInputs rest).mem = s.mem := rfl
@[simp] theorem State.setInputs_inputs (rest : List Input) : (s.setInputs rest).inputs = rest := rfl
@[simp] theorem State.setInputs_observed (rest : List Input) : (s.setInputs rest).observed = s.observed := rfl
@[simp] theorem State.setInputs_resets (rest : List Input) : (s.setInputs rest).resets = s.resets := rfl
@[simp] theorem State.setInputs_draws (rest : List Input) : (s.setInputs rest).draws = s.draws := rfl

/-! ### platformReset -/

@[simp] theorem platformReset_prefixIn : (platformReset s).prefixIn = 0 := rfl
@[simp] theorem platformReset_inLen : (platformReset s).inLen = 0 := rfl
@[simp] theorem platformReset_code : (platformReset s).code = .none := rfl
@[simp] theorem platformReset_fault : (platformReset s).fault = false := rfl
@[simp] theorem platformReset_prefixOut : (platformReset s).prefixOut = 0 := rfl
@[simp] theorem platformReset_offset : (platformReset s).offset = 0 := rfl
@[simp] theorem platformReset_ck0 : (platformReset s).ck0 = 0 := rfl
@[simp] theorem platformReset_ck1 : (platformReset s).ck1 = 0 := rfl
@[simp] theorem platformReset_outLen : (platformReset s).outLen = 0 := rfl
@[simp] theorem platformReset_mem : (platformReset s).mem = [] := rfl
@[simp] theorem platformReset_inputs : (platformReset s).inputs = s.inputs := rfl
@[simp] theorem platformReset_observed : (platformReset s).observed = s.observed := rfl
@[simp] theorem platformReset_resets : (platformReset s).resets = s.resets + 1 := rfl
@[simp] theorem platformReset_draws : (platformReset s).draws = s.draws := rfl

end Fields

/-! ### State.reset -/

@[simp] theorem State.reset_prefixIn : State.reset.prefixIn = 0 := rfl
@[simp] theorem State.reset_inLen : State.reset.inLen = 0 := rfl
@[simp] theorem State.reset_code : State.reset.code = .none := rfl
@[simp] theorem State.reset_fault : State.reset.fault = false := rfl
@[simp] theorem State.reset_prefixOut : State.reset.prefixOut = 0 := rfl
@[simp] theorem State.reset_offset : State.reset.offset = 0 := rfl
@[simp] theorem State.reset_ck0 : State.reset.ck0 = 0 := rfl
@[simp] theorem State.reset_ck1 : State.reset.ck1 = 0 := rfl
@[simp] theorem State.reset_outLen : State.reset.outLen = 0 := rfl
@[simp] theorem State.reset_mem : State.reset.mem = [] := rfl
@[simp] theorem State.reset_inputs : State.reset.inputs = [] := rfl
@[simp] theorem State.reset_observed : State.reset.observed = [] := rfl
@[simp] theorem State.reset_resets : State.reset.resets = 0 := rfl
@[simp] theorem State.reset_draws : State.reset.draws = 0 := rfl

end Sys2Proof.Machine
end

