-- ==== Sys2Proof/Laws/Memory.lean ====
section
/-! SUPPORT. The laws of memory: what a read gives after a write, a run of writes or a clearing, and that every operation
keeps the canonical form. -/

namespace Sys2Proof.Machine

@[simp] theorem Memory.read_nil (a : Nat) : Memory.read [] a = none := rfl

/-- A read after a write: the written byte at its offset, the old one elsewhere. -/
@[simp] theorem Memory.read_write (m : Memory) (a k : Nat) (b : Byte) :
    (Memory.write m a b).read k = if a = k then some b else Memory.read m k := by
  induction m with
  | nil => simp [Memory.write, Memory.read]
  | cons cell rest ih =>
    obtain ⟨j, c⟩ := cell
    simp only [Memory.write]
    split
    · simp [Memory.read]
    · split
      · rename_i h; subst h; by_cases hk : a = k <;> simp [Memory.read, hk]
      · simp only [Memory.read, ih]
        by_cases hj : j = k
        · have : a ≠ k := by omega
          simp [hj, this]
        · simp [hj]

/-- A run of writes stores its i-th byte i places up and leaves every other offset alone. -/
theorem Memory.read_writes (m : Memory) (a k : Nat) (bs : List Byte) :
    (Memory.writes m a bs).read k = if a ≤ k ∧ k < a + bs.length then bs[k - a]? else Memory.read m k := by
  induction bs generalizing m a with
  | nil => simp [Memory.writes]
  | cons b bs ih =>
    simp only [Memory.writes, ih, Memory.read_write, List.length_cons]
    rcases Nat.lt_trichotomy a k with h | h | h
    · have e : k - a = (k - (a + 1)) + 1 := by omega
      by_cases hk : k < a + (bs.length + 1)
      · rw [if_pos (by omega), if_pos (by omega), e, List.getElem?_cons_succ]
      · rw [if_neg (by omega), if_neg (by omega), if_neg (by omega)]
    · subst h; simp
    · rw [if_neg (by omega), if_neg (by omega), if_neg (by omega)]

theorem Memory.clear_cons (j : Nat) (c : Byte) (rest : Memory) (lo n : Nat) :
    Memory.clear ((j, c) :: rest) lo n
      = if lo ≤ j ∧ j < lo + n then Memory.clear rest lo n else (j, c) :: Memory.clear rest lo n := by
  unfold Memory.clear
  rw [List.filter_cons]
  by_cases h : lo ≤ j ∧ j < lo + n
  · simp [h]
  · rw [if_neg h, if_pos (by simp; omega)]

/-- A cleared offset holds no value, and every other offset keeps its own. -/
@[simp] theorem Memory.read_clear (m : Memory) (lo n k : Nat) :
    (Memory.clear m lo n).read k = if lo ≤ k ∧ k < lo + n then none else Memory.read m k := by
  induction m with
  | nil => simp [Memory.clear]
  | cons cell rest ih =>
    obtain ⟨j, c⟩ := cell
    rw [Memory.clear_cons]
    split
    · rename_i hj
      rw [ih]
      by_cases hk : j = k
      · subst hk; rw [if_pos hj, if_pos hj]
      · simp [Memory.read, hk]
    · rename_i hj
      by_cases hk : j = k
      · subst hk; simp [Memory.read, hj]
      · simp [Memory.read, hk, ih]

/-- A write adds no cell but its own. -/
theorem Memory.mem_write (m : Memory) (a : Nat) (b : Byte) (x : Host.Cell) (h : x ∈ Memory.write m a b) :
    x = (a, b) ∨ x ∈ m := by
  induction m with
  | nil => simpa [Memory.write] using h
  | cons cell rest ih =>
    obtain ⟨k, c⟩ := cell
    simp only [Memory.write] at h
    split at h
    · simpa using h
    · split at h
      · rcases List.mem_cons.1 h with h | h <;> simp [h]
      · rcases List.mem_cons.1 h with h | h
        · simp [h]
        · rcases ih h with h | h <;> simp [h]

@[simp] theorem Memory.wf_nil : Memory.wf [] := List.Pairwise.nil

/-- A write keeps the canonical form. -/
theorem Memory.wf_write (m : Memory) (a : Nat) (b : Byte) (h : Memory.wf m) : Memory.wf (Memory.write m a b) := by
  induction m with
  | nil => simp [Memory.write, Memory.wf]
  | cons cell rest ih =>
    obtain ⟨k, c⟩ := cell
    obtain ⟨hk, hrest⟩ := List.pairwise_cons.1 h
    simp only [Memory.write]
    split
    · rename_i hlt
      refine List.pairwise_cons.2 ⟨fun y hy => ?_, h⟩
      rcases List.mem_cons.1 hy with rfl | hy
      · exact hlt
      · exact Nat.lt_trans hlt (hk y hy)
    · split
      · rename_i e; subst e; exact List.pairwise_cons.2 ⟨hk, hrest⟩
      · refine List.pairwise_cons.2 ⟨fun y hy => ?_, ih hrest⟩
        rcases Memory.mem_write rest a b y hy with rfl | hy
        · show k < a; omega
        · exact hk y hy

/-- A run of writes keeps the canonical form. -/
theorem Memory.wf_writes (m : Memory) (a : Nat) (bs : List Byte) (h : Memory.wf m) :
    Memory.wf (Memory.writes m a bs) := by
  induction bs generalizing m a with
  | nil => exact h
  | cons b bs ih => exact ih _ _ (Memory.wf_write m a b h)

/-- A clearing keeps the canonical form. -/
theorem Memory.wf_clear (m : Memory) (lo n : Nat) (h : Memory.wf m) : Memory.wf (Memory.clear m lo n) :=
  List.Pairwise.filter _ h

/-- An offset below every cell holds no value. -/
theorem Memory.read_eq_none_of_lt (m : Memory) (a : Nat) (h : ∀ x ∈ m, a < x.1) : Memory.read m a = none := by
  induction m with
  | nil => rfl
  | cons cell rest ih =>
    have hc := h cell (by simp)
    simp only [Memory.read]
    rw [if_neg (by omega)]
    exact ih fun x hx => h x (by simp [hx])

/-- Equal memories are equal data: canonical memories that read alike are equal. -/
theorem Memory.ext_of_wf (m m' : Memory) (h : Memory.wf m) (h' : Memory.wf m')
    (e : ∀ a, Memory.read m a = Memory.read m' a) : m = m' := by
  induction m generalizing m' with
  | nil =>
    cases m' with
    | nil => rfl
    | cons cell rest => have := e cell.1; simp [Memory.read] at this
  | cons cell rest ih =>
    obtain ⟨hk, hrest⟩ := List.pairwise_cons.1 h
    cases m' with
    | nil => have := e cell.1; simp [Memory.read] at this
    | cons cell' rest' =>
      obtain ⟨hk', hrest'⟩ := List.pairwise_cons.1 h'
      have hkey : cell.1 = cell'.1 := by
        rcases Nat.lt_trichotomy cell.1 cell'.1 with hlt | heq | hlt
        · have h1 := e cell.1
          have h2 : Memory.read (cell' :: rest') cell.1 = none :=
            Memory.read_eq_none_of_lt _ _ fun x hx => by
              rcases List.mem_cons.1 hx with rfl | hx
              · exact hlt
              · exact Nat.lt_trans hlt (hk' x hx)
          rw [h2] at h1; simp [Memory.read] at h1
        · exact heq
        · have h1 := e cell'.1
          have h2 : Memory.read (cell :: rest) cell'.1 = none :=
            Memory.read_eq_none_of_lt _ _ fun x hx => by
              rcases List.mem_cons.1 hx with rfl | hx
              · exact hlt
              · exact Nat.lt_trans hlt (hk x hx)
          rw [h2] at h1; simp [Memory.read] at h1
      have hval : cell.2 = cell'.2 := by
        have h1 := e cell.1
        simpa [Memory.read, hkey] using h1
      have hcell : cell = cell' := Prod.ext hkey hval
      subst hcell
      congr 1
      refine ih rest' hrest hrest' fun a => ?_
      have h1 := e a
      by_cases ha : cell.1 = a
      · subst ha
        rw [Memory.read_eq_none_of_lt rest _ hk, Memory.read_eq_none_of_lt rest' _ hk']
      · simpa [Memory.read, ha] using h1

end Sys2Proof.Machine
end

