-- ==== Sys2Proof/Laws/Ops.lean ====
section
/-! SUPPORT. The shared operations, each with one lemma that says what it can do: what a command reads as its message, what
storing into OUT and into IN leaves in memory, and the sizes the parameters allow. -/

namespace Sys2Proof

/-- The range of MAX_PAYLOAD (spec/00_scope.md R6). -/
theorem Config.maxPayload_range : 32 ≤ Config.maxPayload ∧ Config.maxPayload ≤ 4092 := by
  have := Config.payloadSlack.isLt
  unfold Config.maxPayload
  omega

theorem Config.bufCap_eq : Config.bufCap = Config.maxPayload + 4 := rfl

/-- Each window fits its 4 KiB page (spec/20_memory.md R52). -/
theorem Config.bufCap_le_page : Config.bufCap ≤ Machine.pageSize := by
  have := Config.maxPayload_range
  have : Machine.pageSize = 4096 := rfl
  rw [Config.bufCap_eq]
  omega

namespace Machine

@[simp] theorem inBase_eq : inBase = 0x1000 := rfl
@[simp] theorem outBase_eq : outBase = 0x2000 := rfl
@[simp] theorem pageSize_eq : pageSize = 0x1000 := rfl

/-! ### Operands -/

@[simp] theorem length_message (s : State) (n : Nat) : (message s n).length = n := by simp [message]

/-- The i-th byte of the message is `IN[i]`. -/
theorem getElem?_message (s : State) (n i : Nat) (h : i < n) : (message s n)[i]? = some (inByte s i) := by
  simp [message, h]

/-- A shorter message is a beginning of a longer one. -/
theorem take_message (s : State) (n k : Nat) (h : k ≤ n) : (message s n).take k = message s k := by
  simp [message, ← List.map_take, List.take_range, Nat.min_eq_left h]

/-- The message depends only on the bytes it holds. -/
theorem message_congr (s s' : State) (n : Nat) (h : ∀ i, i < n → inByte s i = inByte s' i) :
    message s n = message s' n :=
  List.map_congr_left fun i hi => h i (List.mem_range.1 hi)

/-! ### Writing OUT and IN -/

/-- Memory after storing `bs` in OUT: `bs` from 0x2000 up, no value in the rest of the OUT page, all else as before. -/
theorem State.read_storeOut (s : State) (bs : List Byte) (a : Nat) :
    (s.storeOut bs).mem.read a
      = if outBase ≤ a ∧ a < outBase + bs.length then bs[a - outBase]?
        else if outBase ≤ a ∧ a < outBase + pageSize then none else s.mem.read a := by
  rw [State.storeOut_mem, Memory.read_writes, Memory.read_clear]

/-- `IN[j]` after the host stores a byte at `IN[i]`. -/
@[simp] theorem inByte_setIn (s : State) (i j : Nat) (b : Byte) :
    inByte (s.setIn i b) j = if i = j then b else inByte s j := by
  by_cases h : i = j <;> simp [inByte, h]

/-- Storing in OUT leaves IN alone. -/
theorem inByte_storeOut (s : State) (bs : List Byte) (i : Nat) (hi : i < pageSize) :
    inByte (s.storeOut bs) i = inByte s i := by
  have hi' : i < 4096 := hi
  unfold inByte
  rw [State.read_storeOut, if_neg (by simp; omega), if_neg (by simp; omega)]
  rfl

/-- What a byte string of at most a page leaves in OUT (R112, R152, R154). -/
theorem State.outIs_storeOut (s : State) (bs : List Byte) (h : bs.length ≤ pageSize) : (s.storeOut bs).OutIs bs where
  len := by
    have : bs.length ≤ 4096 := h
    rw [State.storeOut_outLen, BitVec.toNat_ofNat, Nat.mod_eq_of_lt (by omega)]
  bytes i hi := by
    rw [State.read_storeOut, if_pos (by omega), Nat.add_sub_cancel_left]

/-- Storing in OUT at most a page writes nothing outside the OUT page. -/
theorem State.sameInputs_storeOut (s : State) (bs : List Byte) (h : bs.length ≤ pageSize) :
    s.SameInputs (s.storeOut bs) where
  prefixIn := rfl
  inLen := rfl
  mem a ha := by rw [State.read_storeOut, if_neg (by omega), if_neg (by omega)]
  inputs := rfl
  observed := rfl
  resets := rfl
  draws := rfl

/-! ### The canonical form of memory -/

/-- The memory after reset is canonical. -/
theorem State.reset_wf : State.reset.mem.wf := Memory.wf_nil

/-- A host write of IN keeps the canonical form. -/
theorem State.setIn_wf (s : State) (i : Nat) (b : Byte) (h : s.mem.wf) : (s.setIn i b).mem.wf :=
  Memory.wf_write s.mem _ b h

/-- A command's store to OUT keeps the canonical form. -/
theorem State.storeOut_wf (s : State) (bs : List Byte) (h : s.mem.wf) : (s.storeOut bs).mem.wf :=
  Memory.wf_writes _ _ bs (Memory.wf_clear s.mem _ _ h)

/-- A reset leaves the canonical form. -/
theorem platformReset_wf (s : State) : (platformReset s).mem.wf := Memory.wf_nil

end Machine

end Sys2Proof
end

