-- ==== Sys2Proof/Laws/Codec.lean ====
section
/-! SUPPORT. The pure functions of the codec, each with the lemma that says when it answers what. -/

namespace Sys2Proof.Machine

/-! ### pack -/

theorem pack_of_lt (p : Nat) (h : p < 64) : pack p = [BitVec.ofNat 8 p] := if_pos h

theorem pack_of_ge (p : Nat) (h : 64 ≤ p) :
    pack p = [BitVec.ofNat 8 (packByte0 p), BitVec.ofNat 8 (packByte1 p)] :=
  if_neg (Nat.not_lt.2 h)

/-- The number of prefix bytes (R110). -/
theorem length_pack (p : Nat) : (pack p).length = if p < 64 then 1 else 2 := by
  by_cases h : p < 64
  · simp [pack_of_lt p h, h]
  · simp [pack_of_ge p (Nat.not_lt.1 h), h]

theorem length_pack_range (p : Nat) : 1 ≤ (pack p).length ∧ (pack p).length ≤ 2 := by
  rw [length_pack]; split <;> omega

/-! ### unpack -/

/-- `unpack` by its leading byte (R111). -/
theorem unpack_tier1 (b0 : Byte) (rest : List Byte) (h : b0.toNat < 64) : unpack (b0 :: rest) = .ok ⟨b0.toNat, 1⟩ :=
  if_pos h

theorem unpack_tier2 (b0 b1 : Byte) (rest : List Byte) (h : 64 ≤ b0.toNat) (h' : b0.toNat < 128) :
    unpack (b0 :: b1 :: rest) = .ok ⟨unpackLower b0.toNat b1.toNat ||| (unpackUpper b1.toNat <<< 8), 2⟩ := by
  simp only [unpack, Config.tier1Limit, Config.tier2Limit, if_neg (Nat.not_lt.2 h), if_pos h']

theorem unpack_shortTier (b0 : Byte) (h : 64 ≤ b0.toNat) (h' : b0.toNat < 128) : unpack [b0] = .error .shortTier := by
  simp only [unpack, Config.tier1Limit, Config.tier2Limit, if_neg (Nat.not_lt.2 h), if_pos h']

theorem unpack_tier (b0 : Byte) (rest : List Byte) (h : 128 ≤ b0.toNat) : unpack (b0 :: rest) = .error .tier := by
  simp only [unpack, Config.tier1Limit, Config.tier2Limit, if_neg (Nat.not_lt.2 h), if_neg (show ¬ b0.toNat < 64 by omega)]

/-- What a successful `unpack` can be. -/
theorem unpack_ok_cases (bs : List Byte) (u : Unpacked) (h : unpack bs = .ok u) :
    (∃ b0 rest, bs = b0 :: rest ∧ b0.toNat < 64 ∧ u = ⟨b0.toNat, 1⟩) ∨
    (∃ b0 b1 rest, bs = b0 :: b1 :: rest ∧ 64 ≤ b0.toNat ∧ b0.toNat < 128 ∧
      u = ⟨unpackLower b0.toNat b1.toNat ||| (unpackUpper b1.toNat <<< 8), 2⟩) := by
  match bs with
  | [] => cases h
  | [b0] =>
    rcases Nat.lt_or_ge b0.toNat 64 with h1 | h1
    · rw [unpack_tier1 b0 [] h1] at h; cases h; exact .inl ⟨b0, [], rfl, h1, rfl⟩
    · rcases Nat.lt_or_ge b0.toNat 128 with h2 | h2
      · rw [unpack_shortTier b0 h1 h2] at h; cases h
      · rw [unpack_tier b0 [] h2] at h; cases h
  | b0 :: b1 :: rest =>
    rcases Nat.lt_or_ge b0.toNat 64 with h1 | h1
    · rw [unpack_tier1 b0 _ h1] at h; cases h; exact .inl ⟨b0, _, rfl, h1, rfl⟩
    · rcases Nat.lt_or_ge b0.toNat 128 with h2 | h2
      · rw [unpack_tier2 b0 b1 rest h1 h2] at h; cases h; exact .inr ⟨b0, b1, rest, rfl, h1, h2, rfl⟩
      · rw [unpack_tier b0 _ h2] at h; cases h

/-- The offset is 1 or 2 (R28). -/
theorem unpack_off (bs : List Byte) (u : Unpacked) (h : unpack bs = .ok u) : u.off = 1 ∨ u.off = 2 := by
  rcases unpack_ok_cases bs u h with ⟨_, _, _, _, rfl⟩ | ⟨_, _, _, _, _, _, rfl⟩
  · exact .inl rfl
  · exact .inr rfl

/-- The errors of `unpack`, on any input. -/
theorem unpack_error_code (bs : List Byte) (e : Malformed) (h : unpack bs = .error e) :
    e = .short ∨ e = .tier ∨ e = .shortTier := by
  cases e with
  | short => exact .inl rfl
  | tier => exact .inr (.inl rfl)
  | shortTier => exact .inr (.inr rfl)
  | checksum =>
    unfold unpack at h
    split at h
    · cases h
    · split at h
      · cases h
      · split at h
        · split at h <;> cases h
        · cases h

theorem Malformed.code_ne (e : Malformed) : e.code ≠ .ok ∧ e.code ≠ .none ∧ e.code.setsFault = false := by
  cases e <;> decide

/-! ### frames -/

@[simp] theorem length_frameEncode (p : Nat) (P : List Byte) :
    (frameEncode p P).length = (pack p).length + P.length + 2 := by simp [frameEncode]; omega

/-- The last two bytes of a built frame are its checksum (R90). -/
theorem frameEncode_last (p : Nat) (P : List Byte) :
    (frameEncode p P)[(frameEncode p P).length - 2]? = some (checksum (pack p ++ P)).1 ∧
    (frameEncode p P)[(frameEncode p P).length - 1]? = some (checksum (pack p ++ P)).2 := by
  have e1 : (frameEncode p P).length - 2 = (pack p ++ P).length := by simp
  have e2 : (frameEncode p P).length - 1 = (pack p ++ P).length + 1 := by simp
  rw [e1, e2]
  constructor
  · simp only [frameEncode]; rw [List.getElem?_append_right (by omega)]; simp
  · simp only [frameEncode]; rw [List.getElem?_append_right (by omega)]; simp

/-- A frame whose last two bytes are `c` is what stands before them, then `c`. -/
theorem endsWith_iff (F : List Byte) (c : Byte × Byte) (h : 2 ≤ F.length) :
    endsWith F c = true ↔ F = F.take (F.length - 2) ++ [c.1, c.2] := by
  have split : F = F.take (F.length - 2) ++ F.drop (F.length - 2) := (List.take_append_drop _ _).symm
  have hd : F.drop (F.length - 2) = [F[F.length - 2], F[F.length - 1]] := by
    rw [List.drop_eq_getElem_cons (by omega), List.drop_eq_getElem_cons (by omega)]
    have : F.length - 2 + 1 + 1 = F.length := by omega
    simp only [this, List.drop_length]
    congr 2
    congr 1
    omega
  constructor
  · intro e
    simp only [endsWith, Bool.and_eq_true, beq_iff_eq] at e
    rw [List.getElem?_eq_getElem (by omega), List.getElem?_eq_getElem (by omega)] at e
    obtain ⟨e1, e2⟩ := e
    rw [Option.some.injEq] at e1 e2
    rw [hd, e1, e2] at split
    exact split
  · intro e
    have e' : F.drop (F.length - 2) = [c.1, c.2] := List.append_cancel_left (split.symm.trans e)
    rw [hd] at e'
    simp only [List.cons.injEq, and_true] at e'
    simp only [endsWith, Bool.and_eq_true, beq_iff_eq]
    rw [List.getElem?_eq_getElem (by omega), List.getElem?_eq_getElem (by omega), e'.1, e'.2]
    exact ⟨rfl, rfl⟩

/-- What a successful `frame_decode` says of the frame (R150): its prefix bytes unpack, the rest before the last two bytes
is the payload, and the last two bytes are the checksum. -/
theorem frameDecode_ok (F : List Byte) (d : Decoded) (h : frameDecode F = .ok d) :
    3 ≤ F.length ∧ unpack F = .ok ⟨d.pfx, d.off⟩ ∧ d.off + 2 ≤ F.length ∧
    d.payload = (F.take (F.length - 2)).drop d.off ∧ d.ck = checksum (F.take (F.length - 2)) ∧
    F = F.take (F.length - 2) ++ [d.ck.1, d.ck.2] := by
  simp only [frameDecode, Config.minFrame, Config.tier1Limit, Config.tier2Limit] at h
  split at h
  · cases h
  rename_i h3
  split at h
  · cases h
  rename_i ht
  split at h
  · cases h
  rename_i hs
  split at h
  · cases h
  rename_i u hu
  split at h
  · rename_i he
    cases h
    refine ⟨by omega, hu, ?_, rfl, rfl, (endsWith_iff F _ (by omega)).1 he⟩
    rcases unpack_ok_cases F u hu with ⟨b0, rest, rfl, hb, rfl⟩ | ⟨b0, b1, rest, rfl, hb, hb', rfl⟩
    · show 1 + 2 ≤ _; omega
    · show 2 + 2 ≤ _
      simp only [List.length_cons, List.getElem?_cons_zero, Option.getD_some] at *
      omega
  · cases h

/-- The converse of `frameDecode_ok`. -/
theorem frameDecode_eq_ok (F : List Byte) (u : Unpacked) (hu : unpack F = .ok u) (hl : u.off + 2 ≤ F.length)
    (hc : F = F.take (F.length - 2) ++ [(checksum (F.take (F.length - 2))).1, (checksum (F.take (F.length - 2))).2]) :
    frameDecode F
      = .ok ⟨u.pfx, u.off, (F.take (F.length - 2)).drop u.off, checksum (F.take (F.length - 2))⟩ := by
  have hoff := unpack_off F u hu
  have he := (endsWith_iff F _ (by omega)).2 hc
  simp only [frameDecode, Config.minFrame, Config.tier1Limit, Config.tier2Limit]
  rw [if_neg (by omega)]
  rcases unpack_ok_cases F u hu with ⟨b0, rest, rfl, hb, rfl⟩ | ⟨b0, b1, rest, rfl, hb, hb', rfl⟩
  · rw [if_neg (by simp; omega), if_neg (by simp; omega)]
    simp only [hu, he, if_true]
  · rw [if_neg (by simp; omega), if_neg (by simp at hl ⊢; omega)]
    simp only [hu, he, if_true]

/-- The payload of a decoded frame is the frame without its prefix bytes and its last two bytes (R154). -/
theorem frameDecode_payload_length (F : List Byte) (d : Decoded) (h : frameDecode F = .ok d) :
    d.payload.length = F.length - 2 - d.off := by
  obtain ⟨_, _, _, hp, _, _⟩ := frameDecode_ok F d h
  simp [hp]

end Sys2Proof.Machine
end

