-- ==== Sys2Proof/Laws/Exec.lean ====
section
/-! SUPPORT. What each command can answer: one equation per case of its rule, and one lemma over all six that says how a
command ends. -/

namespace Sys2Proof.Machine

variable (s : State)

/-! ### PACK (R112) -/

theorem execPack_precond (h : 16384 ≤ s.prefixIn.toNat) : execPack s = .next (raiseError .errPrecond s) := if_pos h

theorem execPack_ok (h : s.prefixIn.toNat < 16384) :
    execPack s
      = .next (finish ((s.storeOut (pack s.prefixIn.toNat)).setOffset (pack s.prefixIn.toNat).length)) :=
  if_neg (Nat.not_le.2 h)

/-! ### UNPACK (R113) -/

theorem execUnpack_capacity (h : Config.bufCap < s.inLen.toNat) :
    execUnpack s = .next (raiseError .errCapacity s) := if_pos h

theorem execUnpack_short (h : s.inLen.toNat = 0) : execUnpack s = .next (raiseError .errShort s) := by
  have : ¬ Config.bufCap < s.inLen.toNat := by omega
  simp only [execUnpack, lengthOperand, if_neg this, if_pos h]

theorem execUnpack_error (h : s.inLen.toNat ≤ Config.bufCap) (h0 : s.inLen.toNat ≠ 0) (e : Malformed)
    (he : unpack (message s (min s.inLen.toNat 2)) = .error e) : execUnpack s = .next (raiseError e.code s) := by
  simp only [execUnpack, lengthOperand, if_neg (Nat.not_lt.2 h), if_neg h0, he]

theorem execUnpack_ok (h : s.inLen.toNat ≤ Config.bufCap) (h0 : s.inLen.toNat ≠ 0) (u : Unpacked)
    (hu : unpack (message s (min s.inLen.toNat 2)) = .ok u) :
    execUnpack s = .next (finish ((s.setPrefixOut u.pfx).setOffset u.off)) := by
  simp only [execUnpack, lengthOperand, if_neg (Nat.not_lt.2 h), if_neg h0, hu]

/-! ### CKGEN (R133) -/

theorem execCkgen_capacity (h : Config.bufCap < s.inLen.toNat) :
    execCkgen s = .next (raiseError .errCapacity s) := if_pos h

theorem execCkgen_ok (h : s.inLen.toNat ≤ Config.bufCap) :
    execCkgen s = .next (finish (s.setCksum (checksum (message s s.inLen.toNat)))) := if_neg (Nat.not_lt.2 h)

/-! ### CKCHK (R134) -/

theorem execCkchk_capacity (h : Config.bufCap < s.inLen.toNat) :
    execCkchk s = .next (raiseError .errCapacity s) := if_pos h

theorem execCkchk_short (h : s.inLen.toNat < 2) : execCkchk s = .next (raiseError .errShort s) := by
  have hc : ¬ Config.bufCap < s.inLen.toNat := by have := Config.bufCap_eq; omega
  simp only [execCkchk, lengthOperand, if_neg hc, if_pos h]

theorem execCkchk_ok (h : s.inLen.toNat ≤ Config.bufCap) (h2 : 2 ≤ s.inLen.toNat)
    (hc : (checksum (message s (s.inLen.toNat - 2))).1 = inByte s (s.inLen.toNat - 2) ∧
      (checksum (message s (s.inLen.toNat - 2))).2 = inByte s (s.inLen.toNat - 1)) :
    execCkchk s = .next (finish (s.setCksum (checksum (message s (s.inLen.toNat - 2))))) := by
  simp only [execCkchk, lengthOperand, if_neg (Nat.not_lt.2 h), if_neg (Nat.not_lt.2 h2), if_pos hc]

theorem execCkchk_mismatch (h : s.inLen.toNat ≤ Config.bufCap) (h2 : 2 ≤ s.inLen.toNat)
    (hc : ¬ ((checksum (message s (s.inLen.toNat - 2))).1 = inByte s (s.inLen.toNat - 2) ∧
      (checksum (message s (s.inLen.toNat - 2))).2 = inByte s (s.inLen.toNat - 1))) :
    execCkchk s = .next (raiseError .errChecksum s) := by
  simp only [execCkchk, lengthOperand, if_neg (Nat.not_lt.2 h), if_neg (Nat.not_lt.2 h2), if_neg hc]

/-! ### FENC (R152) -/

theorem execFenc_precond (h : 16384 ≤ s.prefixIn.toNat) : execFenc s = .next (raiseError .errPrecond s) := if_pos h

theorem execFenc_capacity (hp : s.prefixIn.toNat < 16384) (h : Config.maxPayload < s.inLen.toNat) :
    execFenc s = .next (raiseError .errCapacity s) := by
  simp only [execFenc, lengthOperand, prefixOperand, Config.prefixLimit, if_neg (Nat.not_le.2 hp), if_pos h]

theorem execFenc_ok (hp : s.prefixIn.toNat < 16384) (h : s.inLen.toNat ≤ Config.maxPayload) :
    execFenc s
      = .next (finish (((s.storeOut (frameEncode s.prefixIn.toNat (message s s.inLen.toNat))).setOffset
          (pack s.prefixIn.toNat).length).setCksum
          (checksum (pack s.prefixIn.toNat ++ message s s.inLen.toNat)))) := by
  obtain ⟨e1, e2⟩ := frameEncode_last s.prefixIn.toNat (message s s.inLen.toNat)
  simp only [execFenc, lengthOperand, prefixOperand, Config.prefixLimit, if_neg (Nat.not_le.2 hp),
    if_neg (Nat.not_lt.2 h), e1, e2, Option.getD_some]

/-- Every frame FENC builds fits the OUT buffer (R152). -/
theorem length_frame_le (p : Nat) (n : Nat) (h : n ≤ Config.maxPayload) :
    (frameEncode p (message s n)).length ≤ Config.bufCap := by
  have := length_pack_range p
  simp only [length_frameEncode, length_message, Config.bufCap_eq]
  omega

/-! ### FDEC (R154) -/

theorem execFdec_capacity (h : Config.bufCap < s.inLen.toNat) : execFdec s = .next (raiseError .errCapacity s) :=
  if_pos h

theorem execFdec_error (h : s.inLen.toNat ≤ Config.bufCap) (e : Malformed)
    (he : frameDecode (message s s.inLen.toNat) = .error e) : execFdec s = .next (raiseError e.code s) := by
  simp only [execFdec, lengthOperand, if_neg (Nat.not_lt.2 h), he]

theorem execFdec_payload (h : s.inLen.toNat ≤ Config.bufCap) (d : Decoded)
    (hd : frameDecode (message s s.inLen.toNat) = .ok d) (hl : Config.maxPayload < d.payload.length) :
    execFdec s = .next (raiseError .errCapacity s) := by
  simp only [execFdec, lengthOperand, if_neg (Nat.not_lt.2 h), hd, if_pos hl]

theorem execFdec_ok (h : s.inLen.toNat ≤ Config.bufCap) (d : Decoded)
    (hd : frameDecode (message s s.inLen.toNat) = .ok d) (hl : d.payload.length ≤ Config.maxPayload) :
    execFdec s
      = .next (finish ((((s.storeOut d.payload).setPrefixOut d.pfx).setOffset d.off).setCksum d.ck)) := by
  simp only [execFdec, lengthOperand, if_neg (Nat.not_lt.2 h), hd, if_neg (Nat.not_lt.2 hl)]

/-! ### All six -/

/-- How any command ends: with an error, which changes STATUS alone, or with `finish()` on a state `u` that keeps OUT and
OUT_LEN, or that has stored a byte string of at most BUF_CAP bytes in OUT. A `u` whose PREFIX_OUT or OUT_LEN was written has
OFFSET 1 or 2, and OFFSET is never set to anything else. -/
theorem exec_cases (i : Instr) :
    (∃ c, c ≠ .ok ∧ c ≠ .none ∧ exec i s = .next (raiseError c s)) ∨
    (∃ u, exec i s = .next (finish u) ∧ u.prefixIn = s.prefixIn ∧ u.inLen = s.inLen ∧ u.fault = s.fault ∧
      u.inputs = s.inputs ∧ u.observed = s.observed ∧ u.resets = s.resets ∧ u.draws = s.draws ∧
      (u.offset = 1 ∨ u.offset = 2 ∨ (u.offset = s.offset ∧ u.prefixOut = s.prefixOut ∧ u.outLen = s.outLen)) ∧
      ((u.mem = s.mem ∧ u.outLen = s.outLen) ∨
        ∃ bs, bs.length ≤ Config.bufCap ∧ u.mem = (s.storeOut bs).mem ∧ u.outLen = (s.storeOut bs).outLen)) := by
  have off (n : Nat) (h : n = 1 ∨ n = 2) : BitVec.ofNat 2 n = 1 ∨ BitVec.ofNat 2 n = 2 := by
    rcases h with rfl | rfl
    · exact .inl rfl
    · exact .inr rfl
  have hpack : (pack s.prefixIn.toNat).length = 1 ∨ (pack s.prefixIn.toNat).length = 2 := by
    have := length_pack_range s.prefixIn.toNat; omega
  cases i with
  | pack =>
    rcases Nat.lt_or_ge s.prefixIn.toNat 16384 with h | h
    · refine .inr ⟨_, execPack_ok s h, rfl, rfl, rfl, rfl, rfl, rfl, rfl, ?_, .inr ⟨_, ?_, rfl, rfl⟩⟩
      · rcases off _ hpack with h | h
        · exact .inl h
        · exact .inr (.inl h)
      · have := Config.bufCap_eq; omega
    · exact .inl ⟨_, by decide, by decide, execPack_precond s h⟩
  | unpack =>
    rcases Nat.lt_or_ge Config.bufCap s.inLen.toNat with h | h
    · exact .inl ⟨_, by decide, by decide, execUnpack_capacity s h⟩
    by_cases h0 : s.inLen.toNat = 0
    · exact .inl ⟨_, by decide, by decide, execUnpack_short s h0⟩
    cases hu : unpack (message s (min s.inLen.toNat 2)) with
    | error e => exact .inl ⟨_, e.code_ne.1, e.code_ne.2.1, execUnpack_error s h h0 e hu⟩
    | ok u =>
      refine .inr ⟨_, execUnpack_ok s h h0 u hu, rfl, rfl, rfl, rfl, rfl, rfl, rfl, ?_, .inl ⟨rfl, rfl⟩⟩
      rcases off _ (unpack_off _ u hu) with h | h
      · exact .inl h
      · exact .inr (.inl h)
  | ckgen =>
    rcases Nat.lt_or_ge Config.bufCap s.inLen.toNat with h | h
    · exact .inl ⟨_, by decide, by decide, execCkgen_capacity s h⟩
    · exact .inr ⟨_, execCkgen_ok s h, rfl, rfl, rfl, rfl, rfl, rfl, rfl, .inr (.inr ⟨rfl, rfl, rfl⟩), .inl ⟨rfl, rfl⟩⟩
  | ckchk =>
    rcases Nat.lt_or_ge Config.bufCap s.inLen.toNat with h | h
    · exact .inl ⟨_, by decide, by decide, execCkchk_capacity s h⟩
    rcases Nat.lt_or_ge s.inLen.toNat 2 with h2 | h2
    · exact .inl ⟨_, by decide, by decide, execCkchk_short s h2⟩
    by_cases hc : (checksum (message s (s.inLen.toNat - 2))).1 = inByte s (s.inLen.toNat - 2) ∧
        (checksum (message s (s.inLen.toNat - 2))).2 = inByte s (s.inLen.toNat - 1)
    · exact .inr ⟨_, execCkchk_ok s h h2 hc, rfl, rfl, rfl, rfl, rfl, rfl, rfl, .inr (.inr ⟨rfl, rfl, rfl⟩),
        .inl ⟨rfl, rfl⟩⟩
    · exact .inl ⟨_, by decide, by decide, execCkchk_mismatch s h h2 hc⟩
  | fenc =>
    rcases Nat.lt_or_ge s.prefixIn.toNat 16384 with hp | hp
    · rcases Nat.lt_or_ge Config.maxPayload s.inLen.toNat with h | h
      · exact .inl ⟨_, by decide, by decide, execFenc_capacity s hp h⟩
      · refine .inr ⟨_, execFenc_ok s hp h, rfl, rfl, rfl, rfl, rfl, rfl, rfl, ?_,
          .inr ⟨_, length_frame_le s _ _ h, rfl, rfl⟩⟩
        rcases off _ hpack with h | h
        · exact .inl h
        · exact .inr (.inl h)
    · exact .inl ⟨_, by decide, by decide, execFenc_precond s hp⟩
  | fdec =>
    rcases Nat.lt_or_ge Config.bufCap s.inLen.toNat with h | h
    · exact .inl ⟨_, by decide, by decide, execFdec_capacity s h⟩
    cases hd : frameDecode (message s s.inLen.toNat) with
    | error e => exact .inl ⟨_, e.code_ne.1, e.code_ne.2.1, execFdec_error s h e hd⟩
    | ok d =>
      rcases Nat.lt_or_ge Config.maxPayload d.payload.length with hl | hl
      · exact .inl ⟨_, by decide, by decide, execFdec_payload s h d hd hl⟩
      · refine .inr ⟨_, execFdec_ok s h d hd hl, rfl, rfl, rfl, rfl, rfl, rfl, rfl, ?_, .inr ⟨_, ?_, rfl, rfl⟩⟩
        · rcases off _ (unpack_off _ _ (frameDecode_ok _ d hd).2.1) with h | h
          · exact .inl h
          · exact .inr (.inl h)
        · have := Config.bufCap_eq; omega

/-- How a write of CMD ends: as the command it encodes, or with ERR_ILLEGAL (R25, R174). -/
theorem runCommand_cases (w : Word) :
    (∃ i, decode w = .ok i ∧ runCommand w s = exec i s) ∨
    ((∃ e, decode w = .error e) ∧ runCommand w s = .next (raiseError .errIllegal s)) := by
  unfold runCommand
  cases hd : decode w with
  | ok i => exact .inl ⟨i, rfl, rfl⟩
  | error e => exact .inr ⟨⟨e, rfl⟩, rfl⟩

end Sys2Proof.Machine
end

