-- ==== Sys2Proof/Laws/Bus.lean ====
section
/-! SUPPORT. What a host access and a step can answer: one lemma each, from which every claim about a step follows. -/

namespace Sys2Proof.Machine

/-- A host read that is answered returns one value and changes nothing else, but for the count of free draws. -/
theorem hostRead_next (off n : Nat) (s t : State) (h : hostRead off n s = .next t) :
    ∃ o, t = s.observe o ∨ t = (s.observe o).countDraw := by
  unfold hostRead at h
  split at h
  · cases h
  split at h
  · cases h
  · split at h
    · cases h; exact ⟨_, .inl rfl⟩
    · cases h
  · cases h; exact ⟨_, .inl rfl⟩
  · cases h
    unfold readOut
    split
    · exact ⟨_, .inl rfl⟩
    · exact ⟨_, .inr rfl⟩

/-- The register at an offset is the one whose offset it is (R37). -/
theorem regAt_eq_some (off : Nat) (r : Reg) : regAt off = some r ↔ off = r.address := by
  constructor
  · intro h
    have := List.find?_some h
    exact (by simpa using this : r.address = off).symm
  · rintro rfl; cases r <;> rfl

/-- Which offset and width reach which place (R51, R52, R57). -/
theorem locate_eq_ok (off n : Nat) (p : Place) :
    locate off n = .ok p ↔
      match p with
      | .reg r => n = 4 ∧ off = r.address
      | .inByte i => n = 1 ∧ off = inBase + i ∧ i < Config.bufCap
      | .outByte i => n = 1 ∧ off = outBase + i ∧ i < Config.bufCap := by
  have hp : Config.bufCap ≤ 4096 := Config.bufCap_le_page
  have hi : inBase = 0x1000 := rfl
  have ho : outBase = 0x2000 := rfl
  have hr (r : Reg) : r.address < 0x024 := by cases r <;> decide
  unfold locate
  split
  · rename_i h
    split
    · rename_i hn
      cases p with
      | reg r =>
        show _ ↔ n = 4 ∧ off = r.address
        rw [← regAt_eq_some]
        cases regAt off <;> simp [hn]
      | inByte i =>
        cases regAt off <;> simp <;> omega
      | outByte i =>
        cases regAt off <;> simp <;> omega
    · cases p <;> simp <;> omega
  · rename_i h
    have nr (r : Reg) : off ≠ r.address := fun e => h (e ▸ hr r)
    split
    · split
      · cases p with
        | reg r => simp [nr]
        | inByte i => simp; omega
        | outByte i => simp only [Except.ok.injEq, Place.outByte.injEq]; omega
      · cases p with
        | reg r => simp [nr]
        | inByte i => simp; omega
        | outByte i => simp; omega
    · split
      · split
        · cases p with
          | reg r => simp [nr]
          | inByte i => simp only [Except.ok.injEq, Place.inByte.injEq]; omega
          | outByte i => simp; omega
        · cases p with
          | reg r => simp [nr]
          | inByte i => simp; omega
          | outByte i => simp; omega
      · cases p with
        | reg r => simp [nr]
        | inByte i => simp; omega
        | outByte i => simp; omega

/-- A host write that is answered is a 32-bit write of CMD, which runs a command, or sets PREFIX_IN or IN_LEN, or stores a
byte of IN (R58, R59). -/
theorem hostWrite_next (off n v : Nat) (s t : State) (h : hostWrite off n v s = .next t) :
    (off = 0x000 ∧ n = 4 ∧ v < 2 ^ 32 ∧ runCommand (BitVec.ofNat 32 v) s = .next t) ∨
    t = s.setPrefixIn (BitVec.ofNat 32 v) ∨ t = s.setInLen (BitVec.ofNat 32 v) ∨
    ∃ i, i < Config.bufCap ∧ t = s.setIn i (BitVec.ofNat 8 v) := by
  unfold hostWrite at h
  split at h
  · cases h
  split at h
  · cases h
  rename_i hv
  split at h
  · cases h
  · rename_i r hl
    obtain ⟨rfl, rfl⟩ := (locate_eq_ok _ _ _).1 hl
    cases r with
    | cmd => exact .inl ⟨rfl, rfl, Nat.not_le.1 hv, h⟩
    | prefixIn => cases h; exact .inr (.inl rfl)
    | inLen => cases h; exact .inr (.inr (.inl rfl))
    | status => cases h
    | prefixOut => cases h
    | offset => cases h
    | cksum => cases h
    | outLen => cases h
    | cap => cases h
  · rename_i i hi
    cases h
    exact .inr (.inr (.inr ⟨i, ((locate_eq_ok _ _ _).1 hi).2.2, rfl⟩))
  · cases h

/-- What a step can do: wait, return a value to a read, take effect as a write, or be a reset. -/
theorem step_cases (s t : State) (h : step s = .next t) :
    (s.inputs = [] ∧ t = s) ∨
    (∃ off n rest, s.inputs = .read off n :: rest ∧ hostRead off n (s.setInputs rest) = .next t) ∨
    (∃ off n v rest, s.inputs = .write off n v :: rest ∧ hostWrite off n v (s.setInputs rest) = .next t) ∨
    (∃ rest, s.inputs = .reset :: rest ∧ t = platformReset (s.setInputs rest)) := by
  unfold step at h
  split at h
  · rename_i e; cases h; exact .inl ⟨e, rfl⟩
  · rename_i x rest e
    cases x with
    | read off n => exact .inr (.inl ⟨off, n, rest, e, h⟩)
    | write off n v => exact .inr (.inr (.inl ⟨off, n, v, rest, e, h⟩))
    | reset => cases h; exact .inr (.inr (.inr ⟨rest, e, rfl⟩))

/-- The host's 32-bit write of a word to CMD runs the command (R25). -/
theorem hostWrite_cmd (s : State) (w : Word) : hostWrite 0x000 4 w.toNat s = runCommand w s := by
  have hw : w.toNat < 2 ^ 32 := w.isLt
  unfold hostWrite
  rw [if_neg (by decide), if_neg (by omega)]
  have : locate 0x000 4 = .ok (.reg .cmd) := rfl
  rw [this]
  simp [writeReg]

end Sys2Proof.Machine
end

