-- ==== Sys2Proof/Laws/Decode.lean ====
section
/-! SUPPORT. The decoder as a choice among the six words of the opcode map, and which words it refuses. -/

namespace Sys2Proof

/-- No two rows of the opcode map match one word. -/
theorem commandTable_no_overlap :
    commandTable.Pairwise (fun r r' => (r.mask &&& r'.mask) &&& (r.bits ^^^ r'.bits) ≠ 0) := by decide

/-- `decode` row by row (R81, R82). -/
theorem decode_eq (w : Word) :
    decode w = if w = 1#32 then .ok .pack else if w = 2#32 then .ok .unpack else if w = 3#32 then .ok .ckgen
      else if w = 4#32 then .ok .ckchk else if w = 5#32 then .ok .fenc else if w = 6#32 then .ok .fdec
      else .error (if reservedClear w then .opcode else .reserved) := by
  by_cases h1 : w = 1#32
  · subst h1; rfl
  by_cases h2 : w = 2#32
  · subst h2; rfl
  by_cases h3 : w = 3#32
  · subst h3; rfl
  by_cases h4 : w = 4#32
  · subst h4; rfl
  by_cases h5 : w = 5#32
  · subst h5; rfl
  by_cases h6 : w = 6#32
  · subst h6; rfl
  rw [if_neg h1, if_neg h2, if_neg h3, if_neg h4, if_neg h5, if_neg h6]
  have none_found : commandTable.find? (fun row => w &&& row.mask == row.bits) = none := by
    rw [List.find?_eq_none]
    intro row hrow hm
    have hw (a : Word) (e : ((w &&& 0xFFFFFFFF == a) : Bool) = true) : w = a := by
      rwa [show w &&& 0xFFFFFFFF = w from BitVec.and_allOnes, beq_iff_eq] at e
    simp only [commandTable, List.mem_cons, List.not_mem_nil, or_false] at hrow
    rcases hrow with rfl | rfl | rfl | rfl | rfl | rfl
    · exact h1 (hw _ hm)
    · exact h2 (hw _ hm)
    · exact h3 (hw _ hm)
    · exact h4 (hw _ hm)
    · exact h5 (hw _ hm)
    · exact h6 (hw _ hm)
  unfold decode
  rw [none_found]

/-- A word is refused exactly when it is none of 1 to 6 as a number. -/
theorem decode_error_iff (w : Word) : (∃ e, decode w = .error e) ↔ w.toNat = 0 ∨ 7 ≤ w.toNat := by
  have eq_iff (k : Nat) (hk : k < 7) : w = BitVec.ofNat 32 k ↔ w.toNat = k := by
    rw [← BitVec.toNat_inj, BitVec.toNat_ofNat, Nat.mod_eq_of_lt (by omega)]
  simp only [decode_eq, eq_iff 1 (by decide), eq_iff 2 (by decide), eq_iff 3 (by decide), eq_iff 4 (by decide),
    eq_iff 5 (by decide), eq_iff 6 (by decide)]
  constructor
  · rintro ⟨e, h⟩
    by_contra hc
    have : w.toNat = 1 ∨ w.toNat = 2 ∨ w.toNat = 3 ∨ w.toNat = 4 ∨ w.toNat = 5 ∨ w.toNat = 6 := by omega
    rcases this with e | e | e | e | e | e <;> simp [e] at h
  · intro h
    refine ⟨if reservedClear w then .opcode else .reserved, ?_⟩
    repeat' (rw [if_neg (show ¬ w.toNat = _ by omega)])

end Sys2Proof
end

