-- ==== Sys2Proof/Laws/PerInstr.lean ====
section
/-! SUPPORT. What holds of every command as syntax: it is well formed, its word is legal by R82, holds its opcode in OP and 0
in RSV (R80), and decodes to it (R81). -/

namespace Sys2Proof.Laws.Encoding

def Statement (i : Instr) : Prop :=
  i.wellFormed = true ∧ legalWord (encode i) = true ∧ (encode i).extractLsb' 0 8 = i.opcode ∧
    (encode i).extractLsb' 8 24 = 0 ∧ decode (encode i) = .ok i

theorem pack : Statement .pack := ⟨rfl, rfl, rfl, rfl, rfl⟩
theorem unpack : Statement .unpack := ⟨rfl, rfl, rfl, rfl, rfl⟩
theorem ckgen : Statement .ckgen := ⟨rfl, rfl, rfl, rfl, rfl⟩
theorem ckchk : Statement .ckchk := ⟨rfl, rfl, rfl, rfl, rfl⟩
theorem fenc : Statement .fenc := ⟨rfl, rfl, rfl, rfl, rfl⟩
theorem fdec : Statement .fdec := ⟨rfl, rfl, rfl, rfl, rfl⟩

end Sys2Proof.Laws.Encoding
end

