-- ==== Sys2Proof/Tests/Slice0.lean ====
section
/-! SUPPORT. The model's own tests. Expected values are the spec's: spec/95_test_vectors.md (the vector's id stands in each
test's docstring), the corner cases of the command rules, and words written out from spec/30_encoding.md R80 and R81. After
them, one theorem per obligation with hypotheses: concrete states that meet the hypotheses of each of its clauses. -/

namespace Sys2Proof.Machine

/-! ### Well-formedness: an ill-formed term for each check -/

/-- IL5, IL7: RSV ≠ 0. -/
theorem test_reserved_bits_refused : reservedClear 0x00000101 = false ∧ reservedClear 0x80000001 = false := by decide

/-- IL1, IL2, IL4: OP not listed. -/
theorem test_unlisted_opcode_refused :
    opcodeListed 0x00000000 = false ∧ opcodeListed 0x00000007 = false ∧ opcodeListed 0x000000FF = false := by decide

/-- R82: legality is both checks. -/
theorem test_legal_word_needs_both : legalWord 0x00000106 = false ∧ legalWord 0x00000007 = false ∧ legalWord 6 = true := by
  decide

/-- R50: an offset past the 16 KiB window. -/
theorem test_offset_outside_window :
    (Input.read 0x4000 4).wellFormed = false ∧ (Input.write 0x4000 1 0).wellFormed = false ∧
      (Input.read 0x3FFF 1).wellFormed = true := by decide

/-- R23: a value that does not fit the access. -/
theorem test_value_too_wide :
    (Input.write 0x008 4 0x100000000).wellFormed = false ∧ (Input.write 0x1000 1 0x100).wellFormed = false ∧
      (Input.write 0x008 4 0xFFFFFFFF).wellFormed = true := by decide

/-! ### Decoding: one word per command, bit by bit from R80 and R81 -/

theorem test_decode_pack : decode 0b00000000000000000000000000000001 = .ok .pack := by decide
theorem test_decode_unpack : decode 0b00000000000000000000000000000010 = .ok .unpack := by decide
theorem test_decode_ckgen : decode 0b00000000000000000000000000000011 = .ok .ckgen := by decide
theorem test_decode_ckchk : decode 0b00000000000000000000000000000100 = .ok .ckchk := by decide
theorem test_decode_fenc : decode 0b00000000000000000000000000000101 = .ok .fenc := by decide
theorem test_decode_fdec : decode 0b00000000000000000000000000000110 = .ok .fdec := by decide

/-- IL1 to IL8: the illegal words, by the check that refuses each. -/
theorem test_decode_illegal :
    decode 0x00000000 = .error .opcode ∧ decode 0x00000007 = .error .opcode ∧ decode 0x00000008 = .error .opcode ∧
    decode 0x000000FF = .error .opcode ∧ decode 0x00000101 = .error .reserved ∧ decode 0x00000105 = .error .reserved ∧
    decode 0x80000001 = .error .reserved ∧ decode 0xFFFFFFFF = .error .reserved := by decide

theorem test_decodeTableWord :
    decodeTableWord 32 0x00000005 = some .fenc ∧ decodeTableWord 8 0x105 = some .fenc ∧ decodeTableWord 32 0x105 = none ∧
      decodeTableWord 32 0 = none := by decide

/-! ### STATUS: the nine numbers of R170, in the order of its table -/

theorem test_code_numbers :
    [Code.none, .ok, .errShort, .errTier, .errShortTier, .errChecksum, .errPrecond, .errIllegal, .errCapacity].map Code.bits
      = [0x0, 0x1, 0x2, 0x3, 0x4, 0x5, 0x6, 0x7, 0x8] := by decide

/-! ### Commands -/

/-- The block after a reset, with PREFIX_IN, IN_LEN and the first bytes of IN written by the host. -/
def testState (p len : Word) (bs : List Byte) : State :=
  { State.reset with prefixIn := p, inLen := len, mem := Memory.writes [] 0x1000 bs }

/-- A field of the next state, when there is one. -/
def nextField {α : Type} (r : Result) (f : State → α) : Option α :=
  match r with
  | .next s => some (f s)
  | .fault _ => none
  | .refused _ => none

/-- `OUT[0..OUT_LEN)`. -/
def outBytes (s : State) : List (Option Byte) := (List.range s.outLen.toNat).map (fun i => s.mem.read (0x2000 + i))

/-- PK5: prefix 64 gives 50 00, OUT_LEN and OFFSET 2. -/
theorem test_pack_64 :
    nextField (exec .pack (testState 64 0 [])) (fun s => (outBytes s, s.outLen, s.offset, statusWord s.code s.fault))
      = some ([some 0x50, some 0x00], 2, 2, 0x001) := by decide

/-- PK16: prefix 16384 gives STATUS 0x106 and leaves OUT_LEN and OFFSET. -/
theorem test_pack_16384 :
    nextField (exec .pack (testState 16384 0 [])) (fun s => (s.outLen, s.offset, statusWord s.code s.fault))
      = some (0, 0, 0x106) := by decide

/-- PK4, PK13, PK15: 63, 12345 and 16383. -/
theorem test_pack_bytes : pack 63 = [0x3F] ∧ pack 12345 = [0x4E, 0x70] ∧ pack 16383 = [0x7F, 0xFF] := by decide

/-- UP8: 7F 3F gives 16380, the mask dropping the tag bit. -/
theorem test_unpack_7F3F :
    nextField (exec .unpack (testState 0 2 [0x7F, 0x3F])) (fun s => (s.prefixOut, s.offset, statusWord s.code s.fault))
      = some (16380, 2, 0x001) := by decide

/-- UP18: a high-tier byte alone is ERR_TIER, not ERR_SHORT_TIER. -/
theorem test_unpack_high_tier :
    nextField (exec .unpack (testState 0 1 [0x80])) (fun s => (s.prefixOut, s.offset, statusWord s.code s.fault))
      = some (0, 0, 0x003) := by decide

/-- UP14, UP16: a non-canonical pair is accepted; a tier-2 byte alone is too short. -/
theorem test_unpack_tier2 :
    unpack [0x4F, 0xC0] = .ok ⟨63, 2⟩ ∧ unpack [0x50] = .error .shortTier := by decide

/-- The example of R133, for every digest: IN = [00] is hashed after the 7 bytes of CTX. -/
theorem test_ckgen_digest_input :
    nextField (exec .ckgen (testState 0 1 [0x00])) (fun s => (s.ck0, s.ck1, s.code))
      = some ((Config.digest64 [0x53, 0x53, 0x35, 0x38, 0x50, 0x52, 0x45, 0x00])[0],
          (Config.digest64 [0x53, 0x53, 0x35, 0x38, 0x50, 0x52, 0x45, 0x00])[1], Code.ok) := rfl

/-- CG1, for every digest: IN_LEN = 0 hashes CTX alone. -/
theorem test_ckgen_empty :
    nextField (exec .ckgen State.reset) (fun s => s.ck0)
      = some ((Config.digest64 [0x53, 0x53, 0x35, 0x38, 0x50, 0x52, 0x45])[0]) := rfl

/-- CC2: one byte is ERR_SHORT, and CKSUM stays. -/
theorem test_ckchk_one_byte :
    nextField (exec .ckchk (testState 0 1 [0x31])) (fun s => (statusWord s.code s.fault, s.ck0)) = some (0x002, 0) := by decide

/-- CC8 in form, for every digest: a frame with a high-tier byte and its own checksum passes, for CKCHK ignores tiers. -/
theorem test_ckchk_ignores_tiers :
    nextField (exec .ckchk (testState 0 3 [0x80, ck0Of [0x80], ck1Of [0x80]])) (fun s => (s.code, s.ck0))
      = some (Code.ok, ck0Of [0x80]) := by
  have hcap : 3 ≤ Config.bufCap := by have := Config.maxPayload_range; rw [Config.bufCap_eq]; omega
  have h := execCkchk_ok (testState 0 3 [0x80, ck0Of [0x80], ck1Of [0x80]]) hcap (by decide) ⟨rfl, rfl⟩
  exact congrArg (fun r => nextField r (fun s => (s.code, s.ck0))) h

/-- FE10, for every digest: prefix 0 and payload AA give 00 AA and the checksum of [00 AA]. -/
theorem test_fenc_AA :
    nextField (exec .fenc (testState 0 1 [0xAA])) (fun s => (outBytes s, s.outLen, s.offset, s.code))
      = some ([some 0x00, some 0xAA, some (ck0Of [0x00, 0xAA]), some (ck1Of [0x00, 0xAA])], 4, 1, Code.ok) := rfl

/-- FE24: with both errors ERR_PRECOND wins. -/
theorem test_fenc_precond_first :
    nextField (exec .fenc (testState 16384 0xFFFFFFFF [])) (fun s => (statusWord s.code s.fault, s.outLen))
      = some (0x106, 0) := by decide

/-- FD3: two bytes with a high-tier lead are ERR_SHORT. -/
theorem test_fdec_short_first :
    nextField (exec .fdec (testState 0 2 [0x80, 0x00])) (fun s => statusWord s.code s.fault) = some 0x002 := by decide

/-- FD13: a 3-byte frame with a tier-2 lead is ERR_SHORT_TIER. -/
theorem test_fdec_short_tier :
    nextField (exec .fdec (testState 0 3 [0x50, 0x00, 0x00])) (fun s => (statusWord s.code s.fault, s.outLen))
      = some (0x004, 0) := by decide

/-! ### Accesses -/

/-- P1, steps 1, 7 and 10: the encodings of `W32 PREFIX_IN, 64`, `W8 IN[0], 0x50` and `CMD UNPACK`. -/
theorem test_host_notation :
    w32 .prefixIn 64 = .write 0x008 4 0x40 ∧ w8In 0 0x50 = .write 0x1000 1 0x50 ∧ cmdInput .unpack = .write 0x000 4 2 ∧
      r8Out 1 = .read 0x2001 1 := by decide

/-- P1, steps 7 to 9: LOADIN [0x50, 0x00]. -/
theorem test_loadIn :
    loadIn [0x50, 0x00] = [.write 0x1000 1 0x50, .write 0x1001 1 0x00, .write 0x00C 4 2] := by decide

/-- P3, steps 17 and 18: an illegal word leaves STATUS 0x107. -/
theorem test_illegal_word_step :
    nextField (step (State.reset.withFetchWord 32 7)) (fun s => (statusWord s.code s.fault, s.inputs)) = some (0x107, []) := by
  decide

/-- The placed word is what the next step runs. -/
theorem test_placed_word_runs : step (State.reset.withFetchWord 32 1) = exec .pack State.reset := rfl

/-- BE1 to BE8 and BE10: refused, each by its reason. -/
theorem test_bus_errors :
    hostRead 0x000 4 State.reset = .refused (.busError .writeOnly) ∧
    hostWrite 0x004 4 0 State.reset = .refused (.busError .readOnly) ∧
    hostWrite 0x010 4 5 State.reset = .refused (.busError .readOnly) ∧
    hostWrite 0x2000 1 0 State.reset = .refused (.busError .readOnly) ∧
    hostWrite 0x008 1 0x40 State.reset = .refused (.busError .width) ∧
    hostRead 0x006 4 State.reset = .refused (.busError .misaligned) ∧
    hostWrite 0x1000 4 0 State.reset = .refused (.busError .width) ∧
    hostRead 0x024 4 State.reset = .refused (.busError .unmapped) ∧
    hostWrite 0x020 4 64 State.reset = .refused (.busError .readOnly) :=
  ⟨rfl, rfl, rfl, rfl, rfl, rfl, rfl, rfl, rfl⟩

/-! ### Witnesses: states that meet the hypotheses of each obligation, clause by clause, at the ends of their ranges -/

theorem bufCap_ge (n : Nat) (h : n ≤ 36) : n ≤ Config.bufCap := by
  have := Config.maxPayload_range; rw [Config.bufCap_eq]; omega

theorem bufCap_lt (n : Nat) (h : 4096 < n) : Config.bufCap < n := by
  have := Config.maxPayload_range; rw [Config.bufCap_eq]; omega

theorem maxPayload_ge (n : Nat) (h : n ≤ 32) : n ≤ Config.maxPayload := h.trans Config.maxPayload_range.1

theorem maxPayload_lt (n : Nat) (h : 4092 < n) : Config.maxPayload < n :=
  Nat.lt_of_le_of_lt Config.maxPayload_range.2 h

/-- A number of at most 4097 as IN_LEN. -/
theorem lenState_toNat (p : Word) (n : Nat) (bs : List Byte) (h : n ≤ 4097) :
    (testState p (BitVec.ofNat 32 n) bs).inLen.toNat = n := by
  show (BitVec.ofNat 32 n).toNat = n
  rw [BitVec.toNat_ofNat, Nat.mod_eq_of_lt (by omega)]

/-- A frame in IN that ends with its own checksum. -/
def frameState (m : List Byte) : State :=
  testState 0 (BitVec.ofNat 32 (m.length + 2)) (m ++ [ck0Of m, ck1Of m])

/-- A byte that is not the given one. -/
def otherByte (b : Byte) : Byte := b + 1

theorem otherByte_ne (b : Byte) : b ≠ otherByte b := by
  intro h
  have h2 := congrArg BitVec.toNat h
  have := b.isLt
  simp only [otherByte, BitVec.toNat_add] at h2
  simp at h2
  omega

/-- A frame in IN whose first checksum byte is wrong. -/
def brokenFrameState (m : List Byte) : State :=
  testState 0 (BitVec.ofNat 32 (m.length + 2)) (m ++ [otherByte (ck0Of m), ck1Of m])

theorem witness_IllegalWordsExactly :
    (∃ e, decode 0x00000000 = .error e) ∧ (∃ e, decode 0x00000007 = .error e) ∧ (∃ e, decode 0x000000FF = .error e) ∧
      (∃ e, decode 0x00000101 = .error e) ∧ (∃ e, decode 0xFFFFFFFF = .error e) :=
  ⟨⟨_, rfl⟩, ⟨_, rfl⟩, ⟨_, rfl⟩, ⟨_, rfl⟩, ⟨_, rfl⟩⟩

theorem witness_StepRunsDecodedCommand :
    (∃ (s : State) (w : Word) (i : Instr) (rest : List Input),
      s.inputs = .write 0x000 4 w.toNat :: rest ∧ decode w = .ok i) ∧
    (∃ (s : State) (rest : List Input), s.inputs = .read 0x000 4 :: rest) :=
  ⟨⟨State.reset.setInputs [.write 0x000 4 6], 6, .fdec, [], rfl, rfl⟩,
   ⟨State.reset.setInputs [.read 0x000 4], [], rfl⟩⟩

theorem witness_IdleBlockWaits : ∃ s : State, s.inputs = [] := ⟨State.reset, rfl⟩

theorem witness_StepTakesOldestInput :
    (∃ (s : State) (off n : Nat) (rest : List Input), s.inputs = .read off n :: rest) ∧
    (∃ (s : State) (off n v : Nat) (rest : List Input), s.inputs = .write off n v :: rest) ∧
    (∃ (s t : State) (x : Input) (rest : List Input), s.inputs = x :: rest ∧ step s = .next t) :=
  ⟨⟨State.reset.setInputs [.read 0x000 4], _, _, _, rfl⟩, ⟨State.reset.setInputs [.write 0x3FFF 1 0xFF], _, _, _, _, rfl⟩,
   ⟨State.reset.setInputs [.read 0x004 4, .reset], _, _, _, rfl, rfl⟩⟩

theorem witness_ResetEventRestores : ∃ (s : State) (rest : List Input), s.inputs = .reset :: rest :=
  ⟨State.reset.setInputs [.reset], [], rfl⟩

theorem witness_StepKeepsInv : ∃ s t : State, s.Inv ∧ step s = .next t := by
  refine ⟨State.reset.withFetchWord 32 1, _, ?_, rfl⟩
  constructor <;> simp [State.withFetchWord]

theorem witness_CodesRaisedByCommand :
    (∃ s t, exec .pack s = .next t) ∧ (∃ s t, exec .unpack s = .next t) ∧ (∃ s t, exec .ckgen s = .next t) ∧
    (∃ s t, exec .ckchk s = .next t) ∧ (∃ s t, exec .fenc s = .next t) ∧ (∃ s t, exec .fdec s = .next t) :=
  ⟨⟨State.reset, _, rfl⟩, ⟨State.reset, _, rfl⟩, ⟨State.reset, _, rfl⟩, ⟨State.reset, _, rfl⟩, ⟨State.reset, _, rfl⟩,
   ⟨State.reset, _, rfl⟩⟩

theorem witness_FaultSetByPrecondAndIllegal : ∃ (w : Word) (s t : State), runCommand w s = .next t :=
  ⟨7, State.reset, _, rfl⟩

theorem witness_FaultIsSticky :
    (∃ s t : State, step s = .next t ∧ s.fault = true ∧ t.fault = false) ∧
    (∃ s t : State, step s = .next t ∧ s.fault = false ∧ t.fault = true) :=
  ⟨⟨raiseError .errIllegal (State.reset.setInputs [.reset]), _, rfl, rfl, rfl⟩,
   ⟨State.reset.withFetchWord 32 7, _, rfl, rfl, rfl⟩⟩

theorem witness_PackWritesPrefixBytes :
    ((testState 0 0 []).prefixIn.toNat < 64 ∧ (testState 63 0 []).prefixIn.toNat < 64) ∧
    (64 ≤ (testState 64 0 []).prefixIn.toNat ∧ (testState 64 0 []).prefixIn.toNat < 16384) ∧
    (64 ≤ (testState 16383 0 []).prefixIn.toNat ∧ (testState 16383 0 []).prefixIn.toNat < 16384) ∧
    (16384 ≤ (testState 16384 0 []).prefixIn.toNat ∧ 16384 ≤ (testState 0xFFFFFFFF 0 []).prefixIn.toNat) := by decide

theorem witness_UnpackReadsPrefix :
    (∃ s : State, s.inLen.toNat = Config.bufCap + 1 ∧ Config.bufCap < s.inLen.toNat) ∧
    (∃ s : State, s.inLen.toNat = 0) ∧
    (∃ s : State, 1 ≤ s.inLen.toNat ∧ s.inLen.toNat ≤ Config.bufCap ∧ 128 ≤ (inByte s 0).toNat) ∧
    (∃ s : State, s.inLen.toNat = 1 ∧ 64 ≤ (inByte s 0).toNat ∧ (inByte s 0).toNat < 128) ∧
    (∃ s : State, 1 ≤ s.inLen.toNat ∧ s.inLen.toNat ≤ Config.bufCap ∧ (inByte s 0).toNat < 64) ∧
    (∃ s : State, 2 ≤ s.inLen.toNat ∧ s.inLen.toNat = Config.bufCap ∧ 64 ≤ (inByte s 0).toNat ∧
      (inByte s 0).toNat < 128) := by
  have hp : Config.bufCap ≤ 4096 := Config.bufCap_le_page
  have h2 := bufCap_ge 2 (by decide)
  refine ⟨⟨testState 0 (BitVec.ofNat 32 (Config.bufCap + 1)) [], ?_⟩, ⟨State.reset, rfl⟩,
    ⟨testState 0 1 [0x80], by decide, bufCap_ge 1 (by decide), by decide⟩,
    ⟨testState 0 1 [0x7F], by decide, by decide, by decide⟩,
    ⟨testState 0 1 [0x3F], by decide, bufCap_ge 1 (by decide), by decide⟩,
    ⟨testState 0 (BitVec.ofNat 32 Config.bufCap) [0x40, 0x00], ?_, ?_, by decide, by decide⟩⟩
  · rw [lenState_toNat _ _ _ (by omega)]; omega
  · rw [lenState_toNat _ _ _ (by omega)]; exact h2
  · exact lenState_toNat _ _ _ (by omega)

theorem witness_UnpackPackRoundTrip : (0 : Nat) < 16384 ∧ 63 < 16384 ∧ 64 < 16384 ∧ 16383 < 16384 := by decide

theorem witness_UnpackIgnoresLaterBytes :
    ∃ (p : Nat) (rest : List Byte), p < 16384 ∧ rest ≠ [] := ⟨16383, [0xFF], by decide, by decide⟩

theorem witness_PackImages :
    (∃ p q : Nat, p < 16384 ∧ q < 16384 ∧ pack p = pack q) ∧
    (∃ (bs : List Byte) (u : Unpacked), unpack bs = .ok u ∧
      ∃ b0 b1 rest, bs = b0 :: b1 :: rest ∧ NonCanonical b0 b1) ∧
    (∃ (bs : List Byte) (u : Unpacked), unpack bs = .ok u ∧
      ¬ ∃ b0 b1 rest, bs = b0 :: b1 :: rest ∧ NonCanonical b0 b1) := by
  refine ⟨⟨64, 64, by decide, by decide, rfl⟩, ⟨[0x4F, 0xC0], _, rfl, _, _, _, rfl, by decide⟩,
    ⟨[0x3F], _, rfl, ?_⟩⟩
  rintro ⟨_, _, _, h, _⟩
  cases h

theorem witness_NonCanonicalPairs :
    (0x40 ≤ (0x40 : Byte).toNat ∧ (0x40 : Byte).toNat ≤ 0x7F ∧ NonCanonical 0x40 0x00) ∧
    (0x40 ≤ (0x7F : Byte).toNat ∧ (0x7F : Byte).toNat ≤ 0x7F ∧ ¬ NonCanonical 0x7F 0xFF) := by decide

theorem witness_UnpackResultBounded :
    (∃ (bs : List Byte) (u : Unpacked), unpack bs = .ok u ∧ u.off = 1) ∧
    (∃ (bs : List Byte) (u : Unpacked), unpack bs = .ok u ∧ u.off = 2) :=
  ⟨⟨[0x3F], _, rfl, rfl⟩, ⟨[0x7F, 0xFF], _, rfl, rfl⟩⟩

theorem witness_ChecksumGenerated :
    (∃ s : State, s.inLen.toNat = 0 ∧ s.inLen.toNat ≤ Config.bufCap) ∧
    (∃ s : State, s.inLen.toNat = Config.bufCap ∧ s.inLen.toNat ≤ Config.bufCap) ∧
    (∃ s : State, s.inLen.toNat = Config.bufCap + 1 ∧ Config.bufCap < s.inLen.toNat) := by
  have hp : Config.bufCap ≤ 4096 := Config.bufCap_le_page
  refine ⟨⟨State.reset, rfl, Nat.zero_le _⟩, ⟨testState 0 (BitVec.ofNat 32 Config.bufCap) [], ?_⟩,
    ⟨testState 0 (BitVec.ofNat 32 (Config.bufCap + 1)) [], ?_⟩⟩ <;>
  · rw [lenState_toNat _ _ _ (by omega)]; omega

theorem witness_ChecksumVerified :
    (∃ s : State, Config.bufCap < s.inLen.toNat) ∧ (∃ s : State, s.inLen.toNat < 2) ∧
    (∃ s : State, 2 ≤ s.inLen.toNat ∧ s.inLen.toNat ≤ Config.bufCap ∧
      ck0Of (message s (s.inLen.toNat - 2)) ≠ inByte s (s.inLen.toNat - 2)) ∧
    (∃ s : State, 2 ≤ s.inLen.toNat ∧ s.inLen.toNat ≤ Config.bufCap ∧
      ck0Of (message s (s.inLen.toNat - 2)) = inByte s (s.inLen.toNat - 2) ∧
      ck1Of (message s (s.inLen.toNat - 2)) = inByte s (s.inLen.toNat - 1)) :=
  ⟨⟨testState 0 0xFFFFFFFF [], bufCap_lt _ (by decide)⟩, ⟨testState 0 1 [0x31], by decide⟩,
   ⟨brokenFrameState [], by decide, bufCap_ge 2 (by decide), otherByte_ne _⟩,
   ⟨frameState [], by decide, bufCap_ge 2 (by decide), rfl, rfl⟩⟩

theorem witness_FrameBuilt :
    (∃ s : State, 16384 ≤ s.prefixIn.toNat) ∧
    (∃ s : State, s.prefixIn.toNat < 16384 ∧ s.inLen.toNat = Config.maxPayload + 1 ∧
      Config.maxPayload < s.inLen.toNat) ∧
    (∃ s : State, s.prefixIn.toNat < 16384 ∧ s.inLen.toNat = Config.maxPayload ∧
      s.inLen.toNat ≤ Config.maxPayload) := by
  have hp := Config.maxPayload_range
  refine ⟨⟨testState 16384 0 [], by decide⟩,
    ⟨testState 16383 (BitVec.ofNat 32 (Config.maxPayload + 1)) [], by decide, ?_⟩,
    ⟨testState 0 (BitVec.ofNat 32 Config.maxPayload) [], by decide, ?_⟩⟩ <;>
  · rw [lenState_toNat _ _ _ (by omega)]; omega

theorem witness_FrameDecoded_errors :
    (∃ s : State, Config.bufCap < s.inLen.toNat) ∧ (∃ s : State, s.inLen.toNat < 3) ∧
    (∃ s : State, 3 ≤ s.inLen.toNat ∧ s.inLen.toNat ≤ Config.bufCap ∧ 128 ≤ (inByte s 0).toNat) ∧
    (∃ s : State, s.inLen.toNat = 3 ∧ 64 ≤ (inByte s 0).toNat ∧ (inByte s 0).toNat < 128) ∧
    (∃ s : State, 3 ≤ s.inLen.toNat ∧ s.inLen.toNat ≤ Config.bufCap ∧ (inByte s 0).toNat < 64 ∧
      ck0Of (message s (s.inLen.toNat - 2)) ≠ inByte s (s.inLen.toNat - 2)) ∧
    (∃ s : State, 3 ≤ s.inLen.toNat ∧ s.inLen.toNat ≤ Config.bufCap ∧ ((inByte s 0).toNat < 128 ∧ 4 ≤ s.inLen.toNat) ∧
      ck0Of (message s (s.inLen.toNat - 2)) ≠ inByte s (s.inLen.toNat - 2)) :=
  ⟨⟨testState 0 0xFFFFFFFF [], bufCap_lt _ (by decide)⟩, ⟨testState 0 2 [0x80, 0x00], by decide⟩,
   ⟨testState 0 3 [0x80, 0x00, 0x00], by decide, bufCap_ge 3 (by decide), by decide⟩,
   ⟨testState 0 3 [0x50, 0x00, 0x00], by decide, by decide, by decide⟩,
   ⟨brokenFrameState [0x00], by decide, bufCap_ge 3 (by decide), by decide, otherByte_ne _⟩,
   ⟨brokenFrameState [0x7F, 0xFF], by decide, bufCap_ge 4 (by decide), by decide, otherByte_ne _⟩⟩

theorem witness_FrameDecoded_ok :
    (∃ s : State, 3 ≤ s.inLen.toNat ∧ s.inLen.toNat ≤ Config.bufCap ∧ (inByte s 0).toNat < 64 ∧
      ck0Of (message s (s.inLen.toNat - 2)) = inByte s (s.inLen.toNat - 2) ∧
      ck1Of (message s (s.inLen.toNat - 2)) = inByte s (s.inLen.toNat - 1) ∧ s.inLen.toNat - 3 ≤ Config.maxPayload) ∧
    (∃ s : State, 4 ≤ s.inLen.toNat ∧ s.inLen.toNat ≤ Config.bufCap ∧ 64 ≤ (inByte s 0).toNat ∧
      (inByte s 0).toNat < 128 ∧ ck0Of (message s (s.inLen.toNat - 2)) = inByte s (s.inLen.toNat - 2) ∧
      ck1Of (message s (s.inLen.toNat - 2)) = inByte s (s.inLen.toNat - 1)) :=
  ⟨⟨frameState [0x3F], by decide, bufCap_ge 3 (by decide), by decide, rfl, rfl, Nat.zero_le _⟩,
   ⟨frameState [0x40, 0x00], by decide, bufCap_ge 4 (by decide), by decide, by decide, rfl, rfl⟩⟩

theorem length_pack_zero_frame (P : List Byte) : (frameEncode 0 P).length = P.length + 3 := by
  rw [length_frameEncode, length_pack]; simp; omega

/-- IN holds a whole frame. -/
theorem message_testState (bs : List Byte) (k : Nat) (hk : k ≤ bs.length) :
    message (testState 0 (BitVec.ofNat 32 bs.length) bs) k = bs.take k := by
  apply List.ext_getElem?
  intro i
  rcases Nat.lt_or_ge i k with hi | hi
  · rw [getElem?_message _ _ _ hi, List.getElem?_take_of_lt hi]
    unfold inByte
    show some (((Memory.writes [] 0x1000 bs).read (0x1000 + i)).getD _) = _
    rw [Memory.read_writes, if_pos (by omega), Nat.add_sub_cancel_left, List.getElem?_eq_getElem (by omega)]
    rfl
  · rw [List.getElem?_eq_none (by simpa using hi), List.getElem?_eq_none (by simp; omega)]

/-- FD23 in form, for every digest: a tier-1 frame of BUF_CAP bytes, whose payload is MAX_PAYLOAD + 1 bytes. -/
theorem witness_FrameDecoded_payload :
    ∃ s : State, 3 ≤ s.inLen.toNat ∧ s.inLen.toNat = Config.bufCap ∧ (inByte s 0).toNat < 64 ∧
      ck0Of (message s (s.inLen.toNat - 2)) = inByte s (s.inLen.toNat - 2) ∧
      ck1Of (message s (s.inLen.toNat - 2)) = inByte s (s.inLen.toNat - 1) ∧
      Config.maxPayload < s.inLen.toNat - 3 := by
  have hr := Config.maxPayload_range
  have hc := Config.bufCap_eq
  have hl := length_pack_zero_frame (List.replicate (Config.maxPayload + 1) 0)
  rw [List.length_replicate] at hl
  have ho := frameEncode_last 0 (List.replicate (Config.maxPayload + 1) 0)
  have htake : (frameEncode 0 (List.replicate (Config.maxPayload + 1) 0)).take (Config.bufCap - 2)
      = pack 0 ++ List.replicate (Config.maxPayload + 1) 0 := by
    unfold frameEncode
    rw [List.take_append_of_le_length (by simp [length_pack]; omega), List.take_of_length_le (by simp [length_pack]; omega)]
  generalize hF : frameEncode 0 (List.replicate (Config.maxPayload + 1) 0) = F at hl ho htake
  have hlen : F.length = Config.bufCap := by omega
  have hin : (testState 0 (BitVec.ofNat 32 F.length) F).inLen.toNat = Config.bufCap := by
    rw [lenState_toNat _ _ _ (by omega), hlen]
  have hread (i : Nat) (hi : i < F.length) : F[i]? = some (inByte (testState 0 (BitVec.ofNat 32 F.length) F) i) := by
    rw [← getElem?_message _ F.length i hi, message_testState F _ (Nat.le_refl _), List.take_length]
  have h0 : F[0]? = some 0 := by rw [← hF]; simp [frameEncode, pack_of_lt 0 (by decide)]
  refine ⟨testState 0 (BitVec.ofNat 32 F.length) F, by omega, hin, ?_, ?_, ?_, by omega⟩
  · have := (hread 0 (by omega)).symm.trans h0
    rw [Option.some.injEq] at this
    rw [this]; decide
  · rw [hin, message_testState F _ (by omega), htake]
    have := (hread (F.length - 2) (by omega)).symm.trans ho.1
    rw [Option.some.injEq, hlen] at this
    rw [← hlen, hlen]; exact this.symm
  · rw [hin, message_testState F _ (by omega), htake]
    have := (hread (F.length - 1) (by omega)).symm.trans ho.2
    rw [Option.some.injEq, hlen] at this
    rw [← hlen, hlen]; exact this.symm

theorem witness_FrameLayout : ∃ (p : Nat) (P : List Byte), p < 16384 ∧ P ≠ [] := ⟨64, [0xAA], by decide, by decide⟩

theorem witness_FrameRoundTrip : ∃ (p : Nat) (P : List Byte), p < 16384 ∧ P ≠ [] := ⟨16383, [0xFF], by decide, by decide⟩

/-- FENC of prefix 0 and payload AA, and a state whose IN holds its frame. -/
theorem witness_FencThenFdecReturnsAddress :
    ∃ s t u : State, s.prefixIn.toNat < 16384 ∧ s.inLen.toNat ≤ Config.maxPayload ∧ exec .fenc s = .next t ∧
      u.inLen = t.outLen ∧ (∀ i, i < t.outLen.toNat → t.mem.read (outBase + i) = some (inByte u i)) := by
  refine ⟨testState 0 1 [0xAA], _, frameState [0x00, 0xAA], by decide, maxPayload_ge 1 (by decide), rfl, rfl, ?_⟩
  intro i hi
  have : i = 0 ∨ i = 1 ∨ i = 2 ∨ i = 3 := by
    have : i < 4 := hi
    omega
  rcases this with rfl | rfl | rfl | rfl <;> rfl

/-- Two states that differ in IN past IN_LEN and in the old OUT. -/
theorem witness_FencDeterministic :
    ∃ s s' t t' : State, s ≠ s' ∧ s.prefixIn = s'.prefixIn ∧ s.inLen = s'.inLen ∧
      (∀ i, i < s.inLen.toNat → inByte s i = inByte s' i) ∧ s.prefixIn.toNat < 16384 ∧
      s.inLen.toNat ≤ Config.maxPayload ∧ exec .fenc s = .next t ∧ exec .fenc s' = .next t' := by
  refine ⟨testState 0 1 [0xAA], testState 0 1 [0xAA, 0xBB], _, _, by decide, rfl, rfl, ?_, by decide,
    maxPayload_ge 1 (by decide), rfl, rfl⟩
  intro i hi
  have : i = 0 := by
    have : i < 1 := hi
    omega
  subst this; rfl

/-- A frame with one payload bit flipped and the checksum of its own message. -/
theorem witness_AlteredFrameNeverDecodesToOriginal :
    ∃ (p : Nat) (P F' : List Byte) (d : Decoded), p < 16384 ∧ F'.length = (frameEncode p P).length ∧
      F' ≠ frameEncode p P ∧ frameDecode F' = .ok d := by
  refine ⟨0, [0xAA], frameEncode 0 [0xAB], _, by decide, by simp, ?_,
    frameDecode_eq_ok _ ⟨0, 1⟩ rfl (by simp) rfl⟩
  intro h
  exact absurd (congrArg (fun l => l[1]?) h) (by decide)

theorem witness_CommandFrames :
    (∃ s t, exec .pack s = .next t ∧ t.code = .ok) ∧ (∃ s t, exec .unpack s = .next t ∧ t.code = .ok) ∧
    (∃ s t, exec .ckgen s = .next t ∧ t.code = .ok) ∧ (∃ s t, exec .ckchk s = .next t ∧ t.code = .ok) ∧
    (∃ s t, exec .fenc s = .next t ∧ t.code = .ok) ∧ (∃ s t, exec .fdec s = .next t ∧ t.code = .ok) :=
  have hk := execCkchk_ok (frameState []) (bufCap_ge 2 (by decide)) (by decide) ⟨rfl, rfl⟩
  have hd := execFdec_ok (frameState [0x00]) (bufCap_ge 3 (by decide)) _
    (frameDecode_eq_ok (message (frameState [0x00]) 3) ⟨0, 1⟩ rfl (by simp) rfl) (Nat.zero_le _)
  ⟨⟨State.reset, _, rfl, rfl⟩, ⟨testState 0 2 [0x50, 0x40], _, rfl, rfl⟩, ⟨State.reset, _, rfl, rfl⟩,
   ⟨frameState [], _, hk, rfl⟩, ⟨State.reset, _, rfl, rfl⟩, ⟨frameState [0x00], _, hd, rfl⟩⟩

theorem witness_OldOutBytesAreDropped :
    ∃ (s t : State) (k : Nat), exec .pack s = .next t ∧ t.code = .ok ∧ t.outLen.toNat ≤ k ∧ k < pageSize :=
  ⟨testState 16383 0 [], _, 2, rfl, rfl, by decide, by decide⟩

/-- For each command two states with the same operands that differ in an input the command does not read. -/
theorem witness_CommandsReadOnlyTheirOperands :
    (∃ s s' : State, s.inLen ≠ s'.inLen ∧ SameOperands .pack s s' ∧ s.SameOutputs s') ∧
    (∃ s s' : State, s.prefixIn ≠ s'.prefixIn ∧ inByte s 1 ≠ inByte s' 1 ∧ SameOperands .unpack s s' ∧ s.SameOutputs s') ∧
    (∃ s s' : State, inByte s 1 = inByte s' 1 ∧ inByte s 2 ≠ inByte s' 2 ∧ SameOperands .unpack s s' ∧ s.SameOutputs s') ∧
    (∃ s s' : State, s.prefixIn ≠ s'.prefixIn ∧ SameOperands .ckgen s s' ∧ SameOperands .ckchk s s' ∧
      SameOperands .fdec s s' ∧ s.SameOutputs s') ∧
    (∃ s s' : State, inByte s 1 ≠ inByte s' 1 ∧ SameOperands .fenc s s' ∧ s.SameOutputs s') := by
  have hone (s s' : State) (h : s.inLen = 1) (h0 : inByte s 0 = inByte s' 0) :
      ∀ k, k < s.inLen.toNat → inByte s k = inByte s' k := by
    intro k hk
    have : k < 1 := by rw [h] at hk; exact hk
    rw [show k = 0 by omega]; exact h0
  refine ⟨⟨testState 5 0 [], testState 5 1 [0xAA], by decide, rfl, ?_⟩,
    ⟨testState 0 2 [0x3F, 0x00], testState 7 2 [0x3F, 0x01], by decide, by decide, ⟨rfl, fun _ => ⟨fun _ => rfl, ?_⟩⟩, ?_⟩,
    ⟨testState 0 3 [0x40, 0x01, 0x00], testState 0 3 [0x40, 0x01, 0x02], rfl, by decide,
      ⟨rfl, fun _ => ⟨fun _ => rfl, fun _ _ _ => rfl⟩⟩, ?_⟩,
    ⟨testState 0 1 [0xAA], testState 7 1 [0xAA], by decide, ⟨rfl, fun _ => hone _ _ rfl rfl⟩, ⟨rfl, fun _ => hone _ _ rfl rfl⟩,
      ⟨rfl, fun _ => hone _ _ rfl rfl⟩, ?_⟩,
    ⟨testState 5 1 [0xAA, 0x00], testState 5 1 [0xAA, 0xBB], by decide, ⟨rfl, rfl, fun _ => hone _ _ rfl rfl⟩, ?_⟩⟩
  case refine_2 => exact fun _ h => absurd h (by decide)
  all_goals exact ⟨rfl, rfl, rfl, rfl, rfl, rfl, rfl⟩

theorem witness_BusErrorsExactly :
    ∃ (off n v : Nat), off < 0x4000 ∧ v < 2 ^ (8 * n) ∧ off = 0x2000 + (Config.bufCap - 1) ∧ n = 1 := by
  have h : Config.bufCap ≤ 4096 := Config.bufCap_le_page
  exact ⟨0x2000 + (Config.bufCap - 1), 1, 0xFF, by omega, by decide, rfl, rfl⟩

theorem witness_HostWritesRegisters :
    (∃ t, hostWrite 0x008 4 (0xFFFFFFFF : Word).toNat State.reset = .next t) ∧
    (∃ t, hostWrite 0x00C 4 (0 : Word).toNat State.reset = .next t) := ⟨⟨_, rfl⟩, ⟨_, rfl⟩⟩

theorem witness_InByteReadsBack :
    ∃ (s : State) (i : Nat), i < Config.bufCap ∧ s.mem.read (0x1000 + i) = none :=
  ⟨State.reset, 35, bufCap_ge 36 (by decide), rfl⟩

theorem witness_OutByteReads :
    (∃ (s : State) (i : Nat), s.Inv ∧ i < Config.bufCap ∧ i < s.outLen.toNat) ∧
    (∃ (s : State) (i : Nat), s.Inv ∧ i < Config.bufCap ∧ s.outLen.toNat ≤ i) := by
  refine ⟨⟨finish ((State.reset.storeOut [0x00]).setOffset 1), 0, ?_, bufCap_ge 1 (by decide), by decide⟩,
    ⟨State.reset, 0, ?_, bufCap_ge 1 (by decide), by decide⟩⟩
  · have hl : (finish ((State.reset.storeOut [0x00]).setOffset 1)).outLen.toNat = 1 := rfl
    have hr (a : Nat) : (finish ((State.reset.storeOut [0x00]).setOffset 1)).mem.read a
        = if outBase = a then some 0x00 else none := rfl
    refine ⟨State.storeOut_wf _ _ Memory.wf_nil, fun a b h => ?_, fun a h => ?_, ?_, by decide,
      fun h => absurd h (by decide), fun h => absurd h (by decide)⟩
    · rw [hr] at h
      split at h
      · exact .inr ⟨by omega, by rw [hl]; omega⟩
      · cases h
    · obtain ⟨h1, h2⟩ := h
      rw [hl] at h2
      rw [hr, if_pos (by omega)]; rfl
    · rw [hl]; exact bufCap_ge 1 (by decide)
  · constructor <;> simp

theorem witness_ReadsHaveNoSideEffect :
    ∃ (off n : Nat) (s t : State), hostRead off n s = .next t ∧ (∀ i, off = 0x2000 + i → i < s.outLen.toNat) ∧ s.Inv := by
  refine ⟨0x020, 4, State.reset, _, rfl, fun i h => by omega, ?_⟩
  constructor <;> simp

theorem witness_AddressesReachOffsets :
    (0 : Nat) < 0x4000 ∧ 0x3FFF < 0x4000 ∧
    (∃ addr, addr < Config.blockBase ∨ Config.blockBase + 0x4000 ≤ addr) :=
  ⟨by decide, by decide, Config.blockBase + 0x4000, .inr (Nat.le_refl _)⟩

theorem witness_OffsetStaysSet :
    (∃ s t : State, s.offset = 1 ∧ step s = .next t) ∧ (∃ s t : State, s.offset = 2 ∧ step s = .next t) :=
  ⟨⟨State.reset.setOffset 1, _, rfl, rfl⟩, ⟨(State.reset.setOffset 2).setInputs [.reset], _, rfl, rfl⟩⟩

theorem witness_LoadInFillsBuffer :
    (∃ (s : State) (rest : List Input), s.inputs = loadIn [] ++ rest) ∧
    (∃ (s : State) (bs : List Byte) (rest : List Input), bs.length = Config.bufCap ∧ bs.length ≤ Config.bufCap ∧
      s.inputs = loadIn bs ++ rest) :=
  ⟨⟨State.reset.setInputs (loadIn []), [], rfl⟩,
   ⟨State.reset.setInputs (loadIn (List.replicate Config.bufCap 0) ++ [.reset]), List.replicate Config.bufCap 0, [.reset],
     by simp, by simp, rfl⟩⟩

end Sys2Proof.Machine
end

section
/-! SUPPORT. Rules of the bus: what a host access of a register or of an OUT byte answers, and the fields of the words that
registers read as (spec/10_state.md R26 to R31; spec/20_memory.md R57, R65). -/

namespace Sys2Proof.Machine

/-- A 4-byte read of a readable register returns its word (R37, R57). -/
theorem hostRead_reg (s : State) (r : Reg) (w : Word) (h : readReg s r = some w) :
    hostRead r.address 4 s = .next (s.observe (.word w)) := by
  have inside : ¬ windowSize ≤ r.address := by cases r <;> decide
  have place : locate r.address 4 = .ok (.reg r) := (locate_eq_ok _ _ (.reg r)).2 ⟨rfl, rfl⟩
  simp only [hostRead, if_neg inside, place, h]

/-- A 4-byte write of a word to a register is the register's own write (R23 to R25, R57). -/
theorem hostWrite_reg (s : State) (r : Reg) (w : Word) : hostWrite r.address 4 w.toNat s = writeReg r w s := by
  have inside : ¬ windowSize ≤ r.address := by cases r <;> decide
  have fits : ¬ 2 ^ (8 * 4) ≤ w.toNat := Nat.not_le.2 w.isLt
  have place : locate r.address 4 = .ok (.reg r) := (locate_eq_ok _ _ (.reg r)).2 ⟨rfl, rfl⟩
  simp only [hostWrite, if_neg inside, if_neg fits, place, BitVec.ofNat_toNat, BitVec.setWidth_eq]

/-- A 1-byte read in the OUT window reads that OUT byte (R52, R57). -/
theorem hostRead_outByte (s : State) (i : Nat) (h : i < Config.bufCap) :
    hostRead (outBase + i) 1 s = .next (readOut s i) := by
  have page : Config.bufCap ≤ 0x1000 := Config.bufCap_le_page
  have inside : ¬ windowSize ≤ outBase + i := by simp only [windowSize, outBase_eq]; omega
  have place : locate (outBase + i) 1 = .ok (.outByte i) := (locate_eq_ok _ _ (.outByte i)).2 ⟨rfl, rfl, h⟩
  simp only [hostRead, if_neg inside, place]

/-- Below OUT_LEN a read of OUT returns the byte held there (R33). -/
theorem readOut_of_held (s : State) (i : Nat) (b : Byte) (hi : i < s.outLen.toNat)
    (hb : s.mem.read (outBase + i) = some b) : readOut s i = s.observe (.byte b) := by
  simp only [readOut, if_pos hi, hb]

/-- From OUT_LEN on a read of OUT returns the next free value (R65; log entry 8). -/
theorem readOut_of_ge (s : State) (i : Nat) (hi : s.outLen.toNat ≤ i) :
    readOut s i = (s.observe (.byte (Config.outDraw s.draws))).countDraw := by
  simp only [readOut, if_neg (Nat.not_lt.2 hi)]

/-- CKSUM holds CK0 in bits 7:0 and CK1 in bits 15:8 (R29). -/
theorem readReg_cksum (s : State) :
    readReg s .cksum = some (s.ck0.setWidth 32 ||| (s.ck1.setWidth 32 <<< 8)) := by
  have high : (0 : BitVec 16) ++ s.ck1 = s.ck1.setWidth 24 := (BitVec.setWidth_eq_append (by decide)).symm
  rw [readReg, high, BitVec.append_def, BitVec.shiftLeftZeroExtend_eq, BitVec.or_comm,
    BitVec.setWidth_setWidth (by decide), BitVec.setWidth'_eq]

/-- PREFIX_OUT reads as its 14 bits (R27). -/
theorem readReg_prefixOut (s : State) : readReg s .prefixOut = some (s.prefixOut.setWidth 32) := by
  rw [BitVec.setWidth_eq_append (by decide : 14 ≤ 32)]; rfl

/-- OFFSET reads as its 2 bits (R28). -/
theorem readReg_offset (s : State) : readReg s .offset = some (s.offset.setWidth 32) := by
  rw [BitVec.setWidth_eq_append (by decide : 2 ≤ 32)]; rfl

theorem statusWord_code (c : Code) (f : Bool) : (statusWord c f).extractLsb' 0 4 = c.bits := by
  cases c <;> cases f <;> rfl

theorem statusWord_fault (c : Code) (f : Bool) : (statusWord c f).getLsbD 8 = f := by
  cases c <;> cases f <;> rfl

theorem statusWord_reserved (c : Code) (f : Bool) :
    (statusWord c f).extractLsb' 4 4 = 0 ∧ (statusWord c f).extractLsb' 9 23 = 0 := by
  cases c <;> cases f <;> exact ⟨rfl, rfl⟩

theorem Code.bits_le (c : Code) : c.bits.toNat ≤ 8 := by
  cases c <;> decide

end Sys2Proof.Machine
end

section
/-! SUPPORT. What a property needs to be kept by every step but a reset: to be kept by the host's side of the state, by a
host write of IN and by a write of CMD. -/

namespace Sys2Proof.Machine

/-- A write of CMD that answers `t` ran a command, or raised ERR_ILLEGAL (R25, R174). -/
theorem runCommand_next (w : Word) (s t : State) (h : runCommand w s = .next t) :
    (∃ i, exec i s = .next t) ∨ t = raiseError .errIllegal s := by
  rcases runCommand_cases s w with ⟨i, _, e⟩ | ⟨_, e⟩
  · exact .inl ⟨i, e.symm.trans h⟩
  · rw [e] at h; cases h; exact .inr rfl

/-- `P` outlives every change of PREFIX_IN, IN_LEN, the queue of inputs, the record of reads and the counter of draws. -/
def KeptByHost (P : State → Prop) : Prop :=
  ∀ s p n ins obs d, P s → P { s with prefixIn := p, inLen := n, inputs := ins, observed := obs, draws := d }

/-- A step that answers a next state keeps such a `P`, if host writes of IN and writes of CMD keep it, or is a reset. -/
theorem step_keeps_or_resets (P : State → Prop) (host : KeptByHost P)
    (setIn : ∀ s i b, i < Config.bufCap → P s → P (s.setIn i b))
    (cmd : ∀ w s t, P s → runCommand w s = .next t → P t)
    (s t : State) (hs : P s) (h : step s = .next t) :
    P t ∨ ∃ rest, s.inputs = .reset :: rest ∧ t = platformReset (s.setInputs rest) := by
  have taken (rest : List Input) : P (s.setInputs rest) := host s _ _ rest _ _ hs
  rcases step_cases s t h with ⟨_, rfl⟩ | ⟨off, n, rest, _, hr⟩ | ⟨off, n, v, rest, _, hw⟩ | reset
  · exact .inl hs
  · obtain ⟨o, rfl | rfl⟩ := hostRead_next off n _ t hr
    · exact .inl (host (s.setInputs rest) _ _ _ _ _ (taken rest))
    · exact .inl (host (s.setInputs rest) _ _ _ _ _ (taken rest))
  · rcases hostWrite_next off n v _ t hw with ⟨_, _, _, run⟩ | rfl | rfl | ⟨i, hi, rfl⟩
    · exact .inl (cmd _ _ t (taken rest) run)
    · exact .inl (host (s.setInputs rest) _ _ _ _ _ (taken rest))
    · exact .inl (host (s.setInputs rest) _ _ _ _ _ (taken rest))
    · exact .inl (setIn _ i _ hi (taken rest))
  · exact .inr reset

/-- What a command does to OFFSET: 1 or 2, or it leaves OFFSET, PREFIX_OUT and OUT_LEN alone (R28, R38). -/
theorem exec_offset (i : Instr) (s t : State) (h : exec i s = .next t) :
    t.offset = 1 ∨ t.offset = 2 ∨ (t.offset = s.offset ∧ t.prefixOut = s.prefixOut ∧ t.outLen = s.outLen) := by
  rcases exec_cases s i with ⟨c, _, _, e⟩ | ⟨u, e, _, _, _, _, _, _, _, offset, _⟩
  · rw [e] at h; cases h; exact .inr (.inr ⟨rfl, rfl, rfl⟩)
  · rw [e] at h; cases h; exact offset

end Sys2Proof.Machine
end

section
/-! SUPPORT. The invariant, in two parts: what it says of the buffers (memory and OUT_LEN), and what it says of the other
output registers and STATUS. -/

namespace Sys2Proof.Machine

/-- The part of `State.Inv` that speaks of the buffers. -/
structure State.BuffersInv (s : State) : Prop where
  memWf : s.mem.wf
  cells : ∀ a b, s.mem.read a = some b → InWindow a ∨ OutValid s a
  outHeld : ∀ a, OutValid s a → (s.mem.read a).isSome
  outLen : s.outLen.toNat ≤ Config.bufCap

theorem State.Inv.buffers {s : State} (h : s.Inv) : s.BuffersInv := ⟨h.memWf, h.cells, h.outHeld, h.outLen⟩

/-- The buffers' part depends on memory and OUT_LEN alone. -/
theorem State.BuffersInv.congr {s t : State} (h : s.BuffersInv) (mem : t.mem = s.mem) (outLen : t.outLen = s.outLen) :
    t.BuffersInv := by
  constructor
  · exact mem ▸ h.memWf
  · simpa only [OutValid, mem, outLen] using h.cells
  · simpa only [OutValid, mem, outLen] using h.outHeld
  · exact outLen ▸ h.outLen

/-- A host write inside the IN window keeps the buffers' part: its cell lies in the window. -/
theorem State.BuffersInv.setIn {s : State} (h : s.BuffersInv) (i : Nat) (b : Byte) (hi : i < Config.bufCap) :
    (s.setIn i b).BuffersInv where
  memWf := State.setIn_wf s i b h.memWf
  cells a c hc := by
    rw [State.setIn_mem, Memory.read_write] at hc
    split at hc
    · exact .inl (by constructor <;> omega)
    · exact h.cells a c hc
  outHeld a ha := by
    rw [State.setIn_mem, Memory.read_write]
    split
    · rfl
    · exact h.outHeld a ha
  outLen := h.outLen

/-- Storing at most BUF_CAP bytes in OUT makes exactly the bytes below the new OUT_LEN held, and leaves IN's cells. -/
theorem State.BuffersInv.storeOut {s : State} (h : s.BuffersInv) (bs : List Byte) (hbs : bs.length ≤ Config.bufCap) :
    (s.storeOut bs).BuffersInv := by
  have page := Config.bufCap_le_page
  have len : (s.storeOut bs).outLen.toNat = bs.length := (s.outIs_storeOut bs (hbs.trans page)).len
  refine ⟨s.storeOut_wf bs h.memWf, fun a b hab => ?_, fun a ha => ?_, len ▸ hbs⟩
  · rw [State.read_storeOut] at hab
    split at hab
    · exact .inr (by rwa [OutValid, len])
    split at hab
    · cases hab
    · rcases h.cells a b hab with inWindow | ⟨_, _⟩
      · exact .inl inWindow
      · have := h.outLen; omega
  · rw [OutValid, len] at ha
    rw [State.read_storeOut, if_pos ha, List.getElem?_eq_getElem (by omega)]
    rfl

/-- An error changes STATUS alone, to a code other than NONE. -/
theorem State.Inv.raiseError {s : State} (h : s.Inv) (c : Code) (hc : c ≠ .none) : (raiseError c s).Inv :=
  { h with fresh := fun e => absurd e hc }

/-- Every command keeps the invariant. -/
theorem exec_keeps_inv (i : Instr) (s t : State) (hs : s.Inv) (h : exec i s = .next t) : t.Inv := by
  have offset := exec_offset i s t h
  rcases exec_cases s i with ⟨c, _, hc, e⟩ | ⟨u, e, _, _, _, _, _, _, _, _, out⟩
  · rw [e] at h; cases h
    exact hs.raiseError c hc
  · rw [e] at h; cases h
    have buffers : (finish u).BuffersInv := by
      rcases out with ⟨mem, outLen⟩ | ⟨bs, hbs, mem, outLen⟩
      · exact hs.buffers.congr mem outLen
      · exact (hs.buffers.storeOut bs hbs).congr mem outLen
    refine { buffers with offset := ?_, unset := ?_, fresh := nofun }
    · rcases offset with e | e | ⟨e, _, _⟩ <;> rw [e]
      · decide
      · decide
      · exact hs.offset
    · rcases offset with e | e | ⟨e, prefixOut, outLen⟩ <;> rw [e]
      · exact fun zero => absurd zero (by decide)
      · exact fun zero => absurd zero (by decide)
      · rw [prefixOut, outLen]; exact hs.unset

/-- Every write of CMD keeps the invariant. -/
theorem runCommand_keeps_inv (w : Word) (s t : State) (hs : s.Inv) (h : runCommand w s = .next t) : t.Inv := by
  rcases runCommand_next w s t h with ⟨i, run⟩ | rfl
  · exact exec_keeps_inv i s t hs run
  · exact hs.raiseError _ (by decide)

/-- The reset values meet the invariant: no cell is listed and OUT_LEN is 0 (R36). -/
theorem State.reset_inv : State.reset.Inv where
  memWf := State.reset_wf
  cells a b h := by rw [State.reset_mem, Memory.read_nil] at h; cases h
  outHeld a h := absurd h.2 (Nat.not_lt.2 h.1)
  outLen := Nat.zero_le _
  offset := by decide
  unset _ := ⟨rfl, rfl⟩
  fresh _ := ⟨rfl, rfl, rfl, rfl, rfl, rfl⟩

/-- A platform reset differs from the reset state only in what the invariant does not speak of (R200). -/
theorem platformReset_inv (s : State) : (platformReset s).Inv := { State.reset_inv with }

end Sys2Proof.Machine
end

section
/-! The invariant's obligations, and the safety of OFFSET. -/

namespace Sys2Proof.Machine

/-- Settles O10. -/
theorem resetStateInv : Obligations.ResetStateInv := State.reset_inv

/-- Settles O11: the buffers' part by the memory laws, the registers' part by how a command can end. -/
theorem stepKeepsInv : Obligations.StepKeepsInv := by
  intro s t hs h
  have setIn (s : State) (i : Nat) (b : Byte) (hi : i < Config.bufCap) (hs : s.Inv) : (s.setIn i b).Inv :=
    { hs.buffers.setIn i b hi with offset := hs.offset, unset := hs.unset, fresh := hs.fresh }
  rcases step_keeps_or_resets State.Inv (fun _ _ _ _ _ _ hs => { hs with }) setIn runCommand_keeps_inv s t hs h with
    kept | ⟨rest, _, rfl⟩
  · exact kept
  · exact platformReset_inv _

/-- A write of CMD leaves an OFFSET of 1 or 2 at 1 or 2. -/
theorem runCommand_keeps_offset_set (w : Word) (s t : State) (hs : s.offset = 1 ∨ s.offset = 2)
    (h : runCommand w s = .next t) : t.offset = 1 ∨ t.offset = 2 := by
  rcases runCommand_next w s t h with ⟨i, run⟩ | rfl
  · rcases exec_offset i s t run with one | two | ⟨kept, _, _⟩
    · exact .inl one
    · exact .inr two
    · exact kept ▸ hs
  · exact hs

/-- Settles O45: only a command writes OFFSET, and only 1 or 2. -/
theorem offsetStaysSet : Obligations.OffsetStaysSet := by
  intro s t hs h
  rcases step_keeps_or_resets (fun s => s.offset = 1 ∨ s.offset = 2) (fun _ _ _ _ _ _ hs => hs) (fun _ _ _ _ hs => hs)
    runCommand_keeps_offset_set s t hs h with kept | ⟨rest, reset, _⟩
  · exact .inl kept
  · exact .inr ⟨rest, reset⟩

end Sys2Proof.Machine
end

section
/-! SUPPORT. How each command ends, whatever CODE and FAULT hold when it starts: with one error, or with `finish()` after
writing the outputs of its row in spec/10_state.md R38. -/

namespace Sys2Proof.Machine

/-- The state with other values of CODE and FAULT. -/
def State.setFlags (s : State) (c : Code) (f : Bool) : State := { s with code := c, fault := f }

/-- From `s`, with any CODE and FAULT, the command raises `k`. -/
def Raises (i : Instr) (s : State) (k : Code) : Prop :=
  ∀ c f, exec i (s.setFlags c f) = .next (raiseError k (s.setFlags c f))

/-- From `s`, with any CODE and FAULT, the command makes the writes `g` and finishes. -/
def Finishes (i : Instr) (s : State) (g : State → State) : Prop :=
  ∀ c f, exec i (s.setFlags c f) = .next (finish (g (s.setFlags c f)))

variable {i : Instr} {s t : State}

theorem Raises.exec_eq {k : Code} (h : Raises i s k) : exec i s = .next (raiseError k s) := h s.code s.fault

theorem Finishes.exec_eq {g : State → State} (h : Finishes i s g) : exec i s = .next (finish (g s)) := h s.code s.fault

theorem Raises.next_eq {k : Code} (h : Raises i s k) (ht : exec i s = .next t) : t = raiseError k s := by
  rw [h.exec_eq] at ht; cases ht; rfl

theorem Finishes.next_eq {g : State → State} (h : Finishes i s g) (ht : exec i s = .next t) : t = finish (g s) := by
  rw [h.exec_eq] at ht; cases ht; rfl

theorem execPack_ends (s : State) :
    (∃ k, Raises .pack s k) ∨ ∃ bs n, Finishes .pack s fun u => (u.storeOut bs).setOffset n := by
  rcases Nat.lt_or_ge s.prefixIn.toNat 16384 with hp | hp
  · exact .inr ⟨pack s.prefixIn.toNat, (pack s.prefixIn.toNat).length, fun c f => execPack_ok (s.setFlags c f) hp⟩
  · exact .inl ⟨_, fun c f => execPack_precond (s.setFlags c f) hp⟩

theorem execUnpack_ends (s : State) :
    (∃ k, Raises .unpack s k) ∨ ∃ p n, Finishes .unpack s fun u => (u.setPrefixOut p).setOffset n := by
  rcases Nat.lt_or_ge Config.bufCap s.inLen.toNat with h | h
  · exact .inl ⟨_, fun c f => execUnpack_capacity (s.setFlags c f) h⟩
  by_cases h0 : s.inLen.toNat = 0
  · exact .inl ⟨_, fun c f => execUnpack_short (s.setFlags c f) h0⟩
  cases hu : unpack (message s (min s.inLen.toNat 2)) with
  | error e => exact .inl ⟨_, fun c f => execUnpack_error (s.setFlags c f) h h0 e hu⟩
  | ok u => exact .inr ⟨_, _, fun c f => execUnpack_ok (s.setFlags c f) h h0 u hu⟩

theorem execCkgen_ends (s : State) :
    (∃ k, Raises .ckgen s k) ∨ ∃ ck, Finishes .ckgen s fun u => u.setCksum ck := by
  rcases Nat.lt_or_ge Config.bufCap s.inLen.toNat with h | h
  · exact .inl ⟨_, fun c f => execCkgen_capacity (s.setFlags c f) h⟩
  · exact .inr ⟨checksum (message s s.inLen.toNat), fun c f => execCkgen_ok (s.setFlags c f) h⟩

theorem execCkchk_ends (s : State) :
    (∃ k, Raises .ckchk s k) ∨ ∃ ck, Finishes .ckchk s fun u => u.setCksum ck := by
  rcases Nat.lt_or_ge Config.bufCap s.inLen.toNat with h | h
  · exact .inl ⟨_, fun c f => execCkchk_capacity (s.setFlags c f) h⟩
  rcases Nat.lt_or_ge s.inLen.toNat 2 with h2 | h2
  · exact .inl ⟨_, fun c f => execCkchk_short (s.setFlags c f) h2⟩
  by_cases hc : (checksum (message s (s.inLen.toNat - 2))).1 = inByte s (s.inLen.toNat - 2) ∧
      (checksum (message s (s.inLen.toNat - 2))).2 = inByte s (s.inLen.toNat - 1)
  · exact .inr ⟨checksum (message s (s.inLen.toNat - 2)), fun c f => execCkchk_ok (s.setFlags c f) h h2 hc⟩
  · exact .inl ⟨_, fun c f => execCkchk_mismatch (s.setFlags c f) h h2 hc⟩

theorem execFenc_ends (s : State) :
    (∃ k, Raises .fenc s k) ∨ ∃ bs n ck, Finishes .fenc s fun u => ((u.storeOut bs).setOffset n).setCksum ck := by
  rcases Nat.lt_or_ge s.prefixIn.toNat 16384 with hp | hp
  · rcases Nat.lt_or_ge Config.maxPayload s.inLen.toNat with h | h
    · exact .inl ⟨_, fun c f => execFenc_capacity (s.setFlags c f) hp h⟩
    · exact .inr ⟨frameEncode s.prefixIn.toNat (message s s.inLen.toNat), (pack s.prefixIn.toNat).length,
        checksum (pack s.prefixIn.toNat ++ message s s.inLen.toNat), fun c f => execFenc_ok (s.setFlags c f) hp h⟩
  · exact .inl ⟨_, fun c f => execFenc_precond (s.setFlags c f) hp⟩

theorem execFdec_ends (s : State) :
    (∃ k, Raises .fdec s k) ∨
    ∃ bs p n ck, Finishes .fdec s fun u => (((u.storeOut bs).setPrefixOut p).setOffset n).setCksum ck := by
  rcases Nat.lt_or_ge Config.bufCap s.inLen.toNat with h | h
  · exact .inl ⟨_, fun c f => execFdec_capacity (s.setFlags c f) h⟩
  cases hd : frameDecode (message s s.inLen.toNat) with
  | error e => exact .inl ⟨_, fun c f => execFdec_error (s.setFlags c f) h e hd⟩
  | ok d =>
    rcases Nat.lt_or_ge Config.maxPayload d.payload.length with hl | hl
    · exact .inl ⟨_, fun c f => execFdec_payload (s.setFlags c f) h d hd hl⟩
    · exact .inr ⟨_, _, _, _, fun c f => execFdec_ok (s.setFlags c f) h d hd hl⟩

end Sys2Proof.Machine
end

section
/-! What steers a command and what it leaves unchanged (spec/10_state.md R34, R38). -/

namespace Sys2Proof.Machine

/-- What R34 says of one command and one pair of CODE and FAULT. -/
def UnsteeredByFlags (i : Instr) (s : State) (c : Code) (f : Bool) : Prop :=
  ∃ t, exec i s = .next t ∧ exec i (s.setFlags c f) = .next { t with fault := f || t.code.setsFault }

theorem Raises.unsteered {i : Instr} {s : State} {k : Code} (h : Raises i s k) (c : Code) (f : Bool) :
    UnsteeredByFlags i s c f :=
  ⟨raiseError k s, h.exec_eq, h c f⟩

theorem Finishes.unsteered {i : Instr} {s : State} {g : State → State} (h : Finishes i s g) (c : Code) (f : Bool)
    (hg : g (s.setFlags c f) = (g s).setFlags c f) : UnsteeredByFlags i s c f := by
  refine ⟨finish (g s), h.exec_eq, ?_⟩
  rw [h c f, hg]
  simp [finish, State.setFlags, Code.setsFault]

/-- Settles O17: each command's tests and writes leave CODE and FAULT unread. -/
theorem flagsDoNotSteer : Obligations.FlagsDoNotSteer := by
  intro i s c f
  show UnsteeredByFlags i s c f
  cases i with
  | pack =>
    obtain ⟨k, h⟩ | ⟨bs, n, h⟩ := execPack_ends s
    exacts [h.unsteered c f, h.unsteered c f rfl]
  | unpack =>
    obtain ⟨k, h⟩ | ⟨p, n, h⟩ := execUnpack_ends s
    exacts [h.unsteered c f, h.unsteered c f rfl]
  | ckgen =>
    obtain ⟨k, h⟩ | ⟨ck, h⟩ := execCkgen_ends s
    exacts [h.unsteered c f, h.unsteered c f rfl]
  | ckchk =>
    obtain ⟨k, h⟩ | ⟨ck, h⟩ := execCkchk_ends s
    exacts [h.unsteered c f, h.unsteered c f rfl]
  | fenc =>
    obtain ⟨k, h⟩ | ⟨bs, n, ck, h⟩ := execFenc_ends s
    exacts [h.unsteered c f, h.unsteered c f rfl]
  | fdec =>
    obtain ⟨k, h⟩ | ⟨bs, p, n, ck, h⟩ := execFdec_ends s
    exacts [h.unsteered c f, h.unsteered c f rfl]

/-- No command changes its inputs or a byte outside the OUT page (R38, R187). -/
theorem exec_sameInputs (i : Instr) (s t : State) (h : exec i s = .next t) : s.SameInputs t := by
  rcases exec_cases s i with ⟨c, _, _, e⟩ | ⟨u, e, prefixIn, inLen, _, inputs, observed, resets, draws, _, out⟩
  · rw [e] at h; cases h
    exact ⟨rfl, rfl, fun _ _ => rfl, rfl, rfl, rfl, rfl⟩
  · rw [e] at h; cases h
    refine ⟨prefixIn, inLen, fun a ha => ?_, inputs, observed, resets, draws⟩
    rcases out with ⟨mem, _⟩ | ⟨bs, hbs, mem, _⟩
    · rw [finish_mem, mem]
    · rw [finish_mem, mem]
      exact (s.sameInputs_storeOut bs (hbs.trans Config.bufCap_le_page)).mem a ha

/-- IN lies outside the OUT page, so states with the same inputs have the same IN. -/
theorem State.SameInputs.inByte_eq {s t : State} (h : s.SameInputs t) (k : Nat) (hk : k < pageSize) :
    inByte t k = inByte s k := by
  have below : inBase + k < outBase := Nat.add_lt_add_left hk inBase
  rw [inByte, inByte, h.mem _ (.inl below), h.resets]

/-- Settles O34: every command by `exec_sameInputs`, and each row of R38 by how that command ends. -/
theorem commandFrames : Obligations.CommandFrames := by
  intro s t
  refine ⟨fun i h => ?_, fun h => ?_, fun h => ?_, fun h => ?_, fun h => ?_, fun h => ?_⟩
  · have same := exec_sameInputs i s t h
    exact ⟨same, same.inByte_eq, rfl⟩
  · rcases execPack_ends s with ⟨k, e⟩ | ⟨bs, n, e⟩ <;> obtain rfl := e.next_eq h
    · exact ⟨rfl, rfl, rfl⟩
    · exact ⟨rfl, rfl, rfl⟩
  · rcases execUnpack_ends s with ⟨k, e⟩ | ⟨p, n, e⟩ <;> obtain rfl := e.next_eq h
    · exact ⟨⟨rfl, rfl⟩, rfl, fun _ => rfl⟩
    · exact ⟨⟨rfl, rfl⟩, rfl, fun _ => rfl⟩
  · rcases execCkgen_ends s with ⟨k, e⟩ | ⟨ck, e⟩ <;> obtain rfl := e.next_eq h
    · exact ⟨rfl, rfl, rfl, fun _ => rfl⟩
    · exact ⟨rfl, rfl, rfl, fun _ => rfl⟩
  · rcases execCkchk_ends s with ⟨k, e⟩ | ⟨ck, e⟩ <;> obtain rfl := e.next_eq h
    · exact ⟨rfl, rfl, rfl, fun _ => rfl⟩
    · exact ⟨rfl, rfl, rfl, fun _ => rfl⟩
  · rcases execFenc_ends s with ⟨k, e⟩ | ⟨bs, n, ck, e⟩ <;> obtain rfl := e.next_eq h
    · rfl
    · rfl

end Sys2Proof.Machine
end

section
/-! Steps, reset values, and what the host reads and writes (spec/10_state.md R20 to R37; spec/20_memory.md R57 to R65). -/

namespace Sys2Proof.Machine

/-- Settles O41: the invariant gives the byte below OUT_LEN. -/
theorem outByteReads : Obligations.OutByteReads := by
  intro s i hs hi
  refine ⟨fun below => ?_, fun above => ?_⟩
  · obtain ⟨b, hb⟩ := Option.isSome_iff_exists.1 (hs.outHeld (outBase + i) ⟨by omega, by omega⟩)
    exact ⟨b, hb, (hostRead_outByte s i hi).trans (by rw [readOut_of_held s i b below hb])⟩
  · exact (hostRead_outByte s i hi).trans (by rw [readOut_of_ge s i above]; rfl)

/-- Settles O4. -/
theorem stepRunsDecodedCommand : Obligations.StepRunsDecodedCommand := by
  intro s rest
  refine ⟨fun w i pending hd => ?_, fun pending => ?_⟩
  · calc step s = hostWrite 0x000 4 w.toNat (s.setInputs rest) := by rw [step, pending]; rfl
      _ = runCommand w (s.setInputs rest) := hostWrite_cmd _ w
      _ = exec i (s.setInputs rest) := by rw [runCommand, hd]
  · rw [step, pending]; rfl

/-- Settles O5. -/
theorem idleBlockWaits : Obligations.IdleBlockWaits := by
  intro s idle
  rw [step, idle]

/-- Settles O7: every register of the reset state by its value, and OUT_LEN = 0 leaves every OUT byte free. -/
theorem resetValues : Obligations.ResetValues :=
  ⟨rfl, rfl, rfl, rfl, rfl, rfl, rfl, rfl, fun _ => rfl,
    fun i => by rw [readOut_of_ge State.reset i (Nat.zero_le i)]; rfl⟩

/-- Settles O12. -/
theorem statusLayout : Obligations.StatusLayout := by
  intro s
  have field (c : Code) (h : s.code = c) : (statusWord s.code s.fault).extractLsb' 0 4 = c.bits :=
    h ▸ statusWord_code s.code s.fault
  obtain ⟨low, high⟩ := statusWord_reserved s.code s.fault
  exact ⟨statusWord s.code s.fault, hostRead_reg s .status _ rfl, rfl, field .none, field .ok, field .errShort,
    field .errTier, field .errShortTier, field .errChecksum, field .errPrecond, field .errIllegal, field .errCapacity,
    low, statusWord_fault _ _, high, (field s.code rfl).symm ▸ s.code.bits_le⟩

/-- Settles O38. -/
theorem hostReadsRegisters : Obligations.HostReadsRegisters := fun s =>
  ⟨hostRead_reg s .status _ rfl, hostRead_reg s .prefixIn _ rfl, hostRead_reg s .inLen _ rfl,
    hostRead_reg s .prefixOut _ (readReg_prefixOut s), hostRead_reg s .offset _ (readReg_offset s),
    hostRead_reg s .cksum _ (readReg_cksum s), hostRead_reg s .outLen _ rfl, hostRead_reg s .cap _ rfl⟩

/-- Settles O39. -/
theorem hostWritesRegisters : Obligations.HostWritesRegisters := by
  intro s w
  have prefixIn : hostWrite 0x008 4 w.toNat s = .next (s.setPrefixIn w) := hostWrite_reg s .prefixIn w
  have inLen : hostWrite 0x00C 4 w.toNat s = .next (s.setInLen w) := hostWrite_reg s .inLen w
  refine ⟨prefixIn, inLen, fun t h => ?_, fun t h => ?_⟩
  · rw [prefixIn] at h; cases h
    exact hostRead_reg _ .prefixIn w rfl
  · rw [inLen] at h; cases h
    exact hostRead_reg _ .inLen w rfl

/-- Settles O43: MAX_PAYLOAD is at most 4092, so it fits the 32 bits of CAP. -/
theorem capReadsMaxPayload : Obligations.CapReadsMaxPayload := by
  intro s
  obtain ⟨least, most⟩ := Config.maxPayload_range
  have fits : (BitVec.ofNat 32 Config.maxPayload).toNat = Config.maxPayload :=
    by
    rw [BitVec.toNat_ofNat, Nat.mod_eq_of_lt (by omega)]
  exact ⟨_, rfl, fits, least, most, Config.bufCap_eq⟩

end Sys2Proof.Machine
end

section
/-! SUPPORT. Rules of the bus and of the queue: what a host access of an IN byte answers, which place a host read that is
answered has reached, where a host address lies, and that one input leaves the others pending (spec/20_memory.md R50 to R66). -/

namespace Sys2Proof.Machine

/-- The IN window lies inside the block's window (R50, R52). -/
theorem inByte_inside_window (i : Nat) (h : i < Config.bufCap) : ¬ windowSize ≤ inBase + i := by
  have page : Config.bufCap ≤ 0x1000 := Config.bufCap_le_page
  simp only [windowSize, inBase]
  omega

/-- One byte at an offset of the IN window is that IN byte (R52, R57). -/
theorem locate_inByte (i : Nat) (h : i < Config.bufCap) : locate (inBase + i) 1 = .ok (.inByte i) :=
  (locate_eq_ok _ _ (.inByte i)).2 ⟨rfl, rfl, h⟩

/-- A 1-byte read in the IN window returns that IN byte (R57, R66). -/
theorem hostRead_inByte (s : State) (i : Nat) (h : i < Config.bufCap) :
    hostRead (inBase + i) 1 s = .next (s.observe (.byte (inByte s i))) := by
  simp only [hostRead, if_neg (inByte_inside_window i h), locate_inByte i h]

/-- A 1-byte write in the IN window stores the byte there (R57, R66). -/
theorem hostWrite_inByte (s : State) (i : Nat) (b : Byte) (h : i < Config.bufCap) :
    hostWrite (inBase + i) 1 b.toNat s = .next (s.setIn i b) := by
  have fits : ¬ 2 ^ (8 * 1) ≤ b.toNat := Nat.not_le.2 b.isLt
  simp only [hostWrite, if_neg (inByte_inside_window i h), if_neg fits, locate_inByte i h, BitVec.ofNat_toNat,
    BitVec.setWidth_eq]

/-- A host read that is answered is a 4-byte read of a readable register, or a 1-byte read of IN or of OUT (R57, R58). -/
theorem hostRead_cases (off n : Nat) (s t : State) (h : hostRead off n s = .next t) :
    (∃ r w, off = r.address ∧ n = 4 ∧ readReg s r = some w ∧ t = s.observe (.word w)) ∨
    (∃ i, i < Config.bufCap ∧ off = inBase + i ∧ n = 1 ∧ t = s.observe (.byte (inByte s i))) ∨
    (∃ i, i < Config.bufCap ∧ off = outBase + i ∧ n = 1 ∧ t = readOut s i) := by
  unfold hostRead at h
  split at h
  · cases h
  split at h
  · cases h
  · rename_i r place
    obtain ⟨width, address⟩ := (locate_eq_ok _ _ (.reg r)).1 place
    split at h
    · rename_i w readable
      cases h
      exact .inl ⟨r, w, address, width, readable, rfl⟩
    · cases h
  · rename_i i place
    obtain ⟨width, address, bound⟩ := (locate_eq_ok _ _ (.inByte i)).1 place
    cases h
    exact .inr (.inl ⟨i, bound, address, width, rfl⟩)
  · rename_i i place
    obtain ⟨width, address, bound⟩ := (locate_eq_ok _ _ (.outByte i)).1 place
    cases h
    exact .inr (.inr ⟨i, bound, address, width, rfl⟩)

/-- The record of reads is no part of any register (R210; log entry 3). -/
theorem readReg_observe (s : State) (o : Observation) (r : Reg) : readReg (s.observe o) r = readReg s r := by
  cases r <;> rfl

/-- Where OUT holds no byte, or none below OUT_LEN, a read of it returns the next free value (R65; log entry 8). -/
theorem readOut_of_not_held (s : State) (i : Nat)
    (h : ¬ (i < s.outLen.toNat ∧ ∃ b, s.mem.read (outBase + i) = some b)) :
    readOut s i = (s.observe (.byte (Config.outDraw s.draws))).countDraw := by
  rcases Nat.lt_or_ge i s.outLen.toNat with below | above
  · have unheld : s.mem.read (outBase + i) = none := Option.eq_none_iff_forall_ne_some.2 fun b hb => h ⟨below, b, hb⟩
    simp only [readOut, if_pos below, unheld]
  · exact readOut_of_ge s i above

/-- The invariant holds a byte of OUT at every index below OUT_LEN (R33). -/
theorem State.Inv.outByte_held {s : State} (h : s.Inv) (i : Nat) (below : i < s.outLen.toNat) :
    ∃ b, s.mem.read (outBase + i) = some b :=
  Option.isSome_iff_exists.1 (h.outHeld (outBase + i) ⟨Nat.le_add_right _ _, Nat.add_lt_add_left below _⟩)

/-- A host address of the block's window reaches its distance from BLOCK_BASE (R50). -/
theorem offsetOf_inside (off : Nat) (h : off < windowSize) : offsetOf (Config.blockBase + off) = some off := by
  rw [offsetOf, if_pos ⟨Nat.le_add_right _ _, Nat.add_lt_add_left h _⟩, Nat.add_sub_cancel_left]

/-- No other host address reaches the block (R50). -/
theorem offsetOf_outside (addr : Nat) (h : addr < Config.blockBase ∨ Config.blockBase + windowSize ≤ addr) :
    offsetOf addr = none :=
  if_neg (by omega)

/-- With an input pending, a step is that input, on the state from which it has been taken (R61). -/
theorem step_of_pending {s : State} {x : Input} {rest : List Input} (pending : s.inputs = x :: rest) :
    step s = perform x (s.setInputs rest) := by
  rw [step, pending]

/-- No input changes the queue of those after it (R61; log entry 1). -/
theorem perform_inputs (x : Input) (s t : State) (h : perform x s = .next t) : t.inputs = s.inputs := by
  cases x with
  | read off n =>
    obtain ⟨o, rfl | rfl⟩ := hostRead_next off n s t h
    · rfl
    · rfl
  | write off n v =>
    rcases hostWrite_next off n v s t h with ⟨_, _, _, run⟩ | rfl | rfl | ⟨i, _, rfl⟩
    · rcases runCommand_next _ s t run with ⟨i, run⟩ | rfl
      · exact (exec_sameInputs i s t run).inputs
      · rfl
    · rfl
    · rfl
    · rfl
  | reset => cases h; rfl

end Sys2Proof.Machine
end

section
/-! SUPPORT. The three commands that store in OUT, and what they leave there (spec/20_memory.md R65). -/

namespace Sys2Proof.Machine

/-- From `s` a command has stored `bs`, which fits OUT, and changed neither OUT nor OUT_LEN after that. -/
structure State.Stored (s t : State) (bs : List Byte) : Prop where
  fits : bs.length ≤ Config.bufCap
  mem : t.mem = (s.storeOut bs).mem
  outLen : t.outLen = (s.storeOut bs).outLen

/-- PACK, FENC and FDEC end with an error, or store a byte string in OUT (R112, R152, R154). -/
theorem writer_cases (i : Instr) (s : State) (writer : i = .pack ∨ i = .fenc ∨ i = .fdec) :
    (∃ c, c ≠ .ok ∧ exec i s = .next (raiseError c s)) ∨ ∃ t bs, exec i s = .next t ∧ s.Stored t bs := by
  have cap := Config.bufCap_eq
  rcases writer with rfl | rfl | rfl
  · rcases Nat.lt_or_ge s.prefixIn.toNat 16384 with hp | hp
    · have fits : (pack s.prefixIn.toNat).length ≤ Config.bufCap := by
        have := length_pack_range s.prefixIn.toNat
        omega
      exact .inr ⟨_, _, execPack_ok s hp, fits, rfl, rfl⟩
    · exact .inl ⟨_, by decide, execPack_precond s hp⟩
  · rcases Nat.lt_or_ge s.prefixIn.toNat 16384 with hp | hp
    · rcases Nat.lt_or_ge Config.maxPayload s.inLen.toNat with hn | hn
      · exact .inl ⟨_, by decide, execFenc_capacity s hp hn⟩
      · exact .inr ⟨_, _, execFenc_ok s hp hn, length_frame_le s _ _ hn, rfl, rfl⟩
    · exact .inl ⟨_, by decide, execFenc_precond s hp⟩
  · rcases Nat.lt_or_ge Config.bufCap s.inLen.toNat with hn | hn
    · exact .inl ⟨_, by decide, execFdec_capacity s hn⟩
    cases hd : frameDecode (message s s.inLen.toNat) with
    | error e => exact .inl ⟨_, e.code_ne.1, execFdec_error s hn e hd⟩
    | ok d =>
      rcases Nat.lt_or_ge Config.maxPayload d.payload.length with hl | hl
      · exact .inl ⟨_, by decide, execFdec_payload s hn d hd hl⟩
      · exact .inr ⟨_, _, execFdec_ok s hn d hd hl, by omega, rfl, rfl⟩

/-- After a store, OUT holds no byte from OUT_LEN on (R65; log entry 8). -/
theorem State.Stored.read_eq_none {s t : State} {bs : List Byte} (h : s.Stored t bs) (k : Nat)
    (past : t.outLen.toNat ≤ k) (page : k < pageSize) : t.mem.read (outBase + k) = none := by
  have len : (s.storeOut bs).outLen.toNat = bs.length :=
    (s.outIs_storeOut bs (h.fits.trans Config.bufCap_le_page)).len
  rw [h.outLen, len] at past
  rw [h.mem, State.read_storeOut, if_neg (by omega), if_pos ⟨Nat.le_add_right _ _, Nat.add_lt_add_left page _⟩]

end Sys2Proof.Machine
end

section
/-! The obligations on memory and on the bus (spec/20_memory.md). -/

namespace Sys2Proof.Machine

/-- Settles O6: a step is its oldest input, and no input touches the queue. -/
theorem stepTakesOldestInput : Obligations.StepTakesOldestInput := by
  intro s rest
  refine ⟨fun off n pending => step_of_pending pending, fun off n v pending => step_of_pending pending,
    fun x t pending h => ?_⟩
  rw [step_of_pending pending] at h
  exact perform_inputs x _ t h

/-- Settles O35: a writer that ends in OK has stored a byte string, for which the OUT page was cleared. -/
theorem oldOutBytesAreDropped : Obligations.OldOutBytesAreDropped := by
  intro i s t writer h ok k past page
  rcases writer_cases i s writer with ⟨c, hc, e⟩ | ⟨u, bs, e, stored⟩
  · rw [e] at h; cases h
    exact absurd ok hc
  · rw [e] at h; cases h
    exact stored.read_eq_none k past page

/-- Settles O40: a write of IN[i] is `State.setIn`, a read of it is `inByte`. -/
theorem inByteReadsBack : Obligations.InByteReadsBack := by
  intro s i hi
  refine ⟨fun b => ⟨s.setIn i b, hostWrite_inByte s i b hi, ?_, fun a ha => ?_, rfl⟩, fun unwritten => ?_⟩
  · rw [hostRead_inByte _ i hi, inByte_setIn, if_pos rfl]
  · rw [State.setIn_mem, Memory.read_write, if_neg ha.symm]
  · rw [hostRead_inByte s i hi, inByte, unwritten, Option.getD_none]

/-- Settles O42: by the place that is read. Only a free OUT byte moves the counter of draws, and the invariant leaves none of
those below OUT_LEN. -/
theorem readsHaveNoSideEffect : Obligations.ReadsHaveNoSideEffect := by
  intro off n s t h
  rcases hostRead_cases off n s t h with ⟨r, w, rfl, rfl, hw, rfl⟩ | ⟨i, hi, rfl, rfl, rfl⟩ | ⟨i, hi, rfl, rfl, rfl⟩
  · exact ⟨.word w, rfl, fun _ _ => ⟨rfl, hostRead_reg _ r w ((readReg_observe s _ r).trans hw)⟩⟩
  · exact ⟨.byte (inByte s i), rfl, fun _ _ => ⟨rfl, hostRead_inByte _ i hi⟩⟩
  · by_cases held : i < s.outLen.toNat ∧ ∃ b, s.mem.read (outBase + i) = some b
    · obtain ⟨below, b, hb⟩ := held
      rw [readOut_of_held s i b below hb, hostRead_outByte _ i hi, readOut_of_held (s.observe _) i b below hb]
      exact ⟨.byte b, rfl, fun _ _ => ⟨rfl, rfl⟩⟩
    · rw [readOut_of_not_held s i held]
      refine ⟨.byte (Config.outDraw s.draws), rfl, fun valid inv => ?_⟩
      have below := valid i rfl
      exact absurd ⟨below, inv.outByte_held i below⟩ held

/-- Settles O44. -/
theorem addressesReachOffsets : Obligations.AddressesReachOffsets := by
  refine ⟨Nat.mul_mod_right _ _, fun s n v => ⟨fun off inside => ?_, fun addr outside => ?_⟩⟩
  · rw [memRead, memWrite, offsetOf_inside off inside]
    exact ⟨rfl, rfl⟩
  · rw [memRead, memWrite, offsetOf_outside addr outside]
    exact ⟨rfl, rfl⟩

end Sys2Proof.Machine
end

section
/-! SUPPORT. The decoder against the encoder, and R82's conditions on the fields (spec/30_encoding.md R80 to R82). -/

namespace Sys2Proof

/-- A row of the opcode map matches on all 32 bits, and the word it matches encodes the row's command (R81). -/
theorem commandTable_encodes :
    ∀ row ∈ commandTable, row.mask = BitVec.allOnes 32 ∧ row.bits = encode row.instr := by decide

/-- The word of every command decodes to it. -/
theorem decode_encode (i : Instr) : decode (encode i) = .ok i := by
  cases i <;> rfl

/-- No other word decodes to it: the row found holds the whole word. -/
theorem eq_encode_of_decode_eq_ok {w : Word} {i : Instr} (h : decode w = .ok i) : w = encode i := by
  unfold decode at h
  split at h
  · rename_i row found
    cases h
    obtain ⟨mask, bits⟩ := commandTable_encodes row (List.mem_of_find?_eq_some found)
    have hit := List.find?_some found
    rwa [mask, BitVec.and_allOnes, beq_iff_eq, bits] at hit
  · cases h

/-- R82's three conditions on the fields RSV and OP, for the word as a number. -/
theorem illegal_fields_iff (w : Word) :
    (w.extractLsb' 8 24 ≠ 0 ∨ (w.extractLsb' 0 8).toNat = 0x00 ∨ 0x07 ≤ (w.extractLsb' 0 8).toNat) ↔
      (w.toNat = 0 ∨ 7 ≤ w.toNat) := by
  have reserved : w.extractLsb' 8 24 = 0 ↔ w.toNat / 256 = 0 := by
    have bound := w.isLt
    rw [← BitVec.toNat_inj, BitVec.extractLsb'_toNat, Nat.shiftRight_eq_div_pow]
    show _ = 0 ↔ _
    omega
  have opcode : (w.extractLsb' 0 8).toNat = w.toNat % 256 := by
    rw [BitVec.extractLsb'_toNat, Nat.shiftRight_zero]
  rw [ne_eq, reserved, opcode]
  omega

end Sys2Proof
end

section
/-! SUPPORT. The number a tier-2 pair stands for (spec/30_encoding.md R86, R92). -/

namespace Sys2Proof.Machine

theorem unpackLower_eq (b0 b1 : Nat) (h : b1 < 256) : unpackLower b0 b1 = b0 % 64 * 4 + b1 / 64 := by
  have low : b1 >>> 6 < 2 ^ 2 := by rw [Nat.shiftRight_eq_div_pow]; omega
  rw [unpackLower, ← Nat.shiftLeft_add_eq_or_of_lt low, Nat.shiftLeft_eq, Nat.shiftRight_eq_div_pow,
    Nat.and_two_pow_sub_one_eq_mod _ 8]
  omega

theorem unpackUpper_eq (b1 : Nat) : unpackUpper b1 = b1 % 64 := Nat.and_two_pow_sub_one_eq_mod b1 6

/-- What `unpack` makes of a tier-2 pair: b1's low 6 bits, then b0's low 6 bits, then b1's high 2 bits (R86, R111). -/
theorem unpackPair_eq (b0 b1 : Nat) (h : b1 < 256) :
    unpackLower b0 b1 ||| (unpackUpper b1 <<< 8) = b1 % 64 * 256 + b0 % 64 * 4 + b1 / 64 := by
  have low : unpackLower b0 b1 < 2 ^ 8 := by rw [unpackLower_eq b0 b1 h]; omega
  rw [Nat.or_comm, ← Nat.shiftLeft_add_eq_or_of_lt low, Nat.shiftLeft_eq, unpackLower_eq b0 b1 h, unpackUpper_eq]
  omega

/-- The number R92 gives for a non-canonical pair: b0[3:0] before b1[7:6]. -/
theorem nonCanonicalPrefix_toNat (b0 b1 : Byte) :
    (b0.extractLsb' 0 4 ++ b1.extractLsb' 6 2 : BitVec 6).toNat = b0.toNat % 16 * 4 + b1.toNat / 64 := by
  have high : (b0.extractLsb' 0 4).toNat = b0.toNat % 16 := by
    rw [BitVec.extractLsb'_toNat, Nat.shiftRight_zero]
  have low : (b1.extractLsb' 6 2).toNat = b1.toNat / 64 := by
    rw [BitVec.extractLsb'_toNat, Nat.shiftRight_eq_div_pow]; omega
  rw [BitVec.toNat_append, ← Nat.shiftLeft_add_eq_or_of_lt (b1.extractLsb' 6 2).isLt, Nat.shiftLeft_eq, high, low]

end Sys2Proof.Machine
end

section
/-! SUPPORT. Two states that hold the same operands of a command: what the command reads in them, and how its answers
compare (spec/30_encoding.md R83). -/

namespace Sys2Proof.Machine

/-- One command in two states (R83): it completes in both with equal STATUS and output registers, and either both keep
OUT or both store the same bytes there. -/
def EndsAlike (i : Instr) (s s' : State) : Prop :=
  ∃ t t', exec i s = .next t ∧ exec i s' = .next t' ∧ t.SameOutputs t' ∧
    ((s.SameOut t ∧ s'.SameOut t') ∨ ∃ bs, t.OutIs bs ∧ t'.OutIs bs)

variable {s s' : State}

/-- STATUS, the output registers and CAP read alike where the outputs are the same (R37). -/
theorem State.SameOutputs.readReg_eq (h : s.SameOutputs s') (r : Reg) (hp : r ≠ .prefixIn) (hl : r ≠ .inLen) :
    readReg s r = readReg s' r := by
  cases r with
  | prefixIn => exact absurd rfl hp
  | inLen => exact absurd rfl hl
  | cmd => rfl
  | status => rw [readReg, readReg, h.code, h.fault]
  | prefixOut => rw [readReg, readReg, h.prefixOut]
  | offset => rw [readReg, readReg, h.offset]
  | cksum => rw [readReg, readReg, h.ck0, h.ck1]
  | outLen => rw [readReg, readReg, h.outLen]
  | cap => rfl

/-- What a command has stored is what OUT holds (R33). -/
theorem State.Stored.outIs {t : State} {bs : List Byte} (h : s.Stored t bs) : t.OutIs bs := by
  obtain ⟨len, bytes⟩ := s.outIs_storeOut bs (h.fits.trans Config.bufCap_le_page)
  exact ⟨h.outLen ▸ len, h.mem ▸ bytes⟩

section Endings

variable {i : Instr} {t t' : State}

theorem endsAlike_of_kept (e : exec i s = .next t) (e' : exec i s' = .next t') (outputs : t.SameOutputs t')
    (kept : t.outLen = s.outLen ∧ t.mem = s.mem) (kept' : t'.outLen = s'.outLen ∧ t'.mem = s'.mem) :
    EndsAlike i s s' :=
  ⟨t, t', e, e', outputs, .inl ⟨⟨kept.1, fun _ => kept.2 ▸ rfl⟩, ⟨kept'.1, fun _ => kept'.2 ▸ rfl⟩⟩⟩

theorem endsAlike_of_stored {bs : List Byte} (e : exec i s = .next t) (e' : exec i s' = .next t')
    (outputs : t.SameOutputs t') (stored : s.Stored t bs) (stored' : s'.Stored t' bs) : EndsAlike i s s' :=
  ⟨t, t', e, e', outputs, .inr ⟨bs, stored.outIs, stored'.outIs⟩⟩

/-- The same error leaves equal outputs equal, and OUT alone (R180). -/
theorem State.SameOutputs.endsAlike_raise (h : s.SameOutputs s') {c : Code}
    (e : exec i s = .next (raiseError c s)) (e' : exec i s' = .next (raiseError c s')) : EndsAlike i s s' :=
  endsAlike_of_kept e e' { h with code := rfl, fault := congrArg (· || c.setsFault) h.fault } ⟨rfl, rfl⟩ ⟨rfl, rfl⟩

end Endings

/-! ### What a command reads -/

/-- Every beginning of the message is the same (R32). -/
theorem State.SameMessage.message_eq (h : s.SameMessage s') (fits : s.inLen.toNat ≤ Config.bufCap) (n : Nat)
    (hn : n ≤ s.inLen.toNat) : message s n = message s' n :=
  message_congr s s' n fun k hk => h.bytes fits k (Nat.lt_of_lt_of_le hk hn)

/-- `unpack` reads the second byte of a pair only where the first is a tier-2 byte (R111). -/
theorem unpack_pair_congr (b0 b1 b1' : Byte) (h : 64 ≤ b0.toNat → b0.toNat < 128 → b1 = b1') :
    unpack [b0, b1] = unpack [b0, b1'] := by
  rcases Nat.lt_or_ge b0.toNat 64 with lead | lead
  · rw [unpack_tier1 _ _ lead, unpack_tier1 _ _ lead]
  rcases Nat.lt_or_ge b0.toNat 128 with lead' | lead'
  · rw [h lead lead']
  · rw [unpack_tier _ _ lead', unpack_tier _ _ lead']

/-- UNPACK's operands decide what it unpacks (R83, R113). -/
theorem unpack_message_congr (n : Nat) (hn : n ≠ 0) (lead : 1 ≤ n → inByte s 0 = inByte s' 0)
    (second : 2 ≤ n → 64 ≤ (inByte s 0).toNat → (inByte s 0).toNat < 128 → inByte s 1 = inByte s' 1) :
    unpack (message s (min n 2)) = unpack (message s' (min n 2)) := by
  have leading := lead (by omega)
  rcases Nat.lt_or_ge n 2 with one | two
  · obtain rfl : n = 1 := by omega
    show unpack [inByte s 0] = unpack [inByte s' 0]
    rw [leading]
  · rw [Nat.min_eq_right two]
    show unpack [inByte s 0, inByte s 1] = unpack [inByte s' 0, inByte s' 1]
    rw [← leading]
    exact unpack_pair_congr _ _ _ (second two)

/-! ### The six commands: the same test decides in both states -/

theorem execPack_endsAlike (h : s.SameOutputs s') (prefixIn : s.prefixIn = s'.prefixIn) : EndsAlike .pack s s' := by
  rcases Nat.lt_or_ge s.prefixIn.toNat 16384 with hp | hp
  · have fits : (pack s.prefixIn.toNat).length ≤ Config.bufCap := by
      have := length_pack_range s.prefixIn.toNat
      rw [Config.bufCap_eq]; omega
    have e' := execPack_ok s' (prefixIn ▸ hp)
    rw [← prefixIn] at e'
    exact endsAlike_of_stored (execPack_ok s hp) e' { h with code := rfl, offset := rfl, outLen := rfl }
      ⟨fits, rfl, rfl⟩ ⟨fits, rfl, rfl⟩
  · exact h.endsAlike_raise (execPack_precond s hp) (execPack_precond s' (prefixIn ▸ hp))

theorem execUnpack_endsAlike (h : s.SameOutputs s') (operands : SameOperands .unpack s s') : EndsAlike .unpack s s' := by
  obtain ⟨inLen, bytes⟩ := operands
  rcases Nat.lt_or_ge Config.bufCap s.inLen.toNat with hn | hn
  · exact h.endsAlike_raise (execUnpack_capacity s hn) (execUnpack_capacity s' (inLen ▸ hn))
  by_cases h0 : s.inLen.toNat = 0
  · exact h.endsAlike_raise (execUnpack_short s h0) (execUnpack_short s' (inLen ▸ h0))
  obtain ⟨lead, second⟩ := bytes hn
  have same : unpack (message s' (min s'.inLen.toNat 2)) = unpack (message s (min s.inLen.toNat 2)) := by
    rw [← inLen, unpack_message_congr s.inLen.toNat h0 lead second]
  cases hu : unpack (message s (min s.inLen.toNat 2)) with
  | error e =>
    exact h.endsAlike_raise (execUnpack_error s hn h0 e hu)
      (execUnpack_error s' (inLen ▸ hn) (inLen ▸ h0) e (same.trans hu))
  | ok u =>
    exact endsAlike_of_kept (execUnpack_ok s hn h0 u hu) (execUnpack_ok s' (inLen ▸ hn) (inLen ▸ h0) u (same.trans hu))
      { h with code := rfl, prefixOut := rfl, offset := rfl } ⟨rfl, rfl⟩ ⟨rfl, rfl⟩

theorem execCkgen_endsAlike (h : s.SameOutputs s') (operands : s.SameMessage s') : EndsAlike .ckgen s s' := by
  have inLen := operands.inLen
  rcases Nat.lt_or_ge Config.bufCap s.inLen.toNat with hn | hn
  · exact h.endsAlike_raise (execCkgen_capacity s hn) (execCkgen_capacity s' (inLen ▸ hn))
  · have e' := execCkgen_ok s' (inLen ▸ hn)
    rw [← inLen, ← operands.message_eq hn _ (Nat.le_refl _)] at e'
    exact endsAlike_of_kept (execCkgen_ok s hn) e' { h with code := rfl, ck0 := rfl, ck1 := rfl } ⟨rfl, rfl⟩ ⟨rfl, rfl⟩

theorem execCkchk_endsAlike (h : s.SameOutputs s') (operands : s.SameMessage s') : EndsAlike .ckchk s s' := by
  have inLen := operands.inLen
  rcases Nat.lt_or_ge Config.bufCap s.inLen.toNat with hn | hn
  · exact h.endsAlike_raise (execCkchk_capacity s hn) (execCkchk_capacity s' (inLen ▸ hn))
  rcases Nat.lt_or_ge s.inLen.toNat 2 with h2 | h2
  · exact h.endsAlike_raise (execCkchk_short s h2) (execCkchk_short s' (inLen ▸ h2))
  have body := operands.message_eq hn (s.inLen.toNat - 2) (Nat.sub_le _ _)
  have byte0 := operands.bytes hn (s.inLen.toNat - 2) (by omega)
  have byte1 := operands.bytes hn (s.inLen.toNat - 1) (by omega)
  by_cases hc : (checksum (message s (s.inLen.toNat - 2))).1 = inByte s (s.inLen.toNat - 2) ∧
      (checksum (message s (s.inLen.toNat - 2))).2 = inByte s (s.inLen.toNat - 1)
  · have e' := execCkchk_ok s' (inLen ▸ hn) (inLen ▸ h2) (by rwa [← inLen, ← body, ← byte0, ← byte1])
    rw [← inLen, ← body] at e'
    exact endsAlike_of_kept (execCkchk_ok s hn h2 hc) e' { h with code := rfl, ck0 := rfl, ck1 := rfl }
      ⟨rfl, rfl⟩ ⟨rfl, rfl⟩
  · exact h.endsAlike_raise (execCkchk_mismatch s hn h2 hc)
      (execCkchk_mismatch s' (inLen ▸ hn) (inLen ▸ h2) (by rwa [← inLen, ← body, ← byte0, ← byte1]))

theorem execFenc_endsAlike (h : s.SameOutputs s') (prefixIn : s.prefixIn = s'.prefixIn) (operands : s.SameMessage s') :
    EndsAlike .fenc s s' := by
  have inLen := operands.inLen
  rcases Nat.lt_or_ge s.prefixIn.toNat 16384 with hp | hp
  · rcases Nat.lt_or_ge Config.maxPayload s.inLen.toNat with hn | hn
    · exact h.endsAlike_raise (execFenc_capacity s hp hn) (execFenc_capacity s' (prefixIn ▸ hp) (inLen ▸ hn))
    · have payload := operands.message_eq (hn.trans (Nat.le_add_right _ 4)) _ (Nat.le_refl _)
      have fits := length_frame_le s s.prefixIn.toNat _ hn
      have e' := execFenc_ok s' (prefixIn ▸ hp) (inLen ▸ hn)
      rw [← prefixIn, ← inLen, ← payload] at e'
      exact endsAlike_of_stored (execFenc_ok s hp hn) e'
        { h with code := rfl, offset := rfl, ck0 := rfl, ck1 := rfl, outLen := rfl } ⟨fits, rfl, rfl⟩ ⟨fits, rfl, rfl⟩
  · exact h.endsAlike_raise (execFenc_precond s hp) (execFenc_precond s' (prefixIn ▸ hp))

theorem execFdec_endsAlike (h : s.SameOutputs s') (operands : s.SameMessage s') : EndsAlike .fdec s s' := by
  have inLen := operands.inLen
  rcases Nat.lt_or_ge Config.bufCap s.inLen.toNat with hn | hn
  · exact h.endsAlike_raise (execFdec_capacity s hn) (execFdec_capacity s' (inLen ▸ hn))
  have same : frameDecode (message s' s'.inLen.toNat) = frameDecode (message s s.inLen.toNat) := by
    rw [operands.message_eq hn _ (Nat.le_refl _), inLen]
  cases hd : frameDecode (message s s.inLen.toNat) with
  | error e =>
    exact h.endsAlike_raise (execFdec_error s hn e hd) (execFdec_error s' (inLen ▸ hn) e (same.trans hd))
  | ok d =>
    have hd' := same.trans hd
    rcases Nat.lt_or_ge Config.maxPayload d.payload.length with hl | hl
    · exact h.endsAlike_raise (execFdec_payload s hn d hd hl) (execFdec_payload s' (inLen ▸ hn) d hd' hl)
    · have fits : d.payload.length ≤ Config.bufCap := hl.trans (Nat.le_add_right _ 4)
      exact endsAlike_of_stored (execFdec_ok s hn d hd hl) (execFdec_ok s' (inLen ▸ hn) d hd' hl)
        ⟨rfl, h.fault, rfl, rfl, rfl, rfl, rfl⟩ ⟨fits, rfl, rfl⟩ ⟨fits, rfl, rfl⟩

/-- Every command ends alike in states that hold the same operands and outputs (R83). -/
theorem exec_endsAlike (i : Instr) (h : s.SameOutputs s') (operands : SameOperands i s s') : EndsAlike i s s' := by
  cases i with
  | pack => exact execPack_endsAlike h operands
  | unpack => exact execUnpack_endsAlike h operands
  | ckgen => exact execCkgen_endsAlike h operands
  | ckchk => exact execCkchk_endsAlike h operands
  | fenc =>
    obtain ⟨prefixIn, payload⟩ := operands
    exact execFenc_endsAlike h prefixIn payload
  | fdec => exact execFdec_endsAlike h operands

end Sys2Proof.Machine
end

section
/-! SUPPORT. LOADIN as a run: a run of host writes fills IN (spec/30_encoding.md R93, R94). -/

namespace Sys2Proof.Machine

/-- `IN[k + i]` holds `bs[i]` for every byte of `bs`, and all else is as in `s`. -/
def State.fillIn (s : State) (k : Nat) (bs : List Byte) : State := { s with mem := s.mem.writes (inBase + k) bs }

/-- The host fills IN byte by byte, from `IN[k]` up (R32). -/
theorem State.fillIn_cons (s : State) (k : Nat) (b : Byte) (bs : List Byte) :
    s.fillIn k (b :: bs) = (s.setIn k b).fillIn (k + 1) bs := rfl

/-- The bytes filled in are read back as the message. -/
theorem message_fillIn (s : State) (bs : List Byte) : message (s.fillIn 0 bs) bs.length = bs := by
  refine List.ext_getElem (length_message _ _) fun i _ hi => ?_
  have held : (s.fillIn 0 bs).mem.read (inBase + i) = some bs[i] := by
    rw [State.fillIn, Memory.read_writes, if_pos (by omega), Nat.add_zero, Nat.add_sub_cancel_left,
      List.getElem?_eq_getElem hi]
  simp only [message, List.getElem_map, List.getElem_range, inByte, held, Option.getD_some]

/-- Filling IN leaves the bytes after the filled ones alone. -/
theorem inByte_fillIn_of_ge (s : State) (bs : List Byte) (i : Nat) (h : bs.length ≤ i) :
    inByte (s.fillIn 0 bs) i = inByte s i := by
  rw [inByte, State.fillIn, Memory.read_writes, if_neg (by omega)]
  rfl

/-- A run of any machine goes on from what its first step answers. -/
theorem coreRun_succ (M : Host.Core) (s t : M.State) (h : M.step s = .next t) (n : Nat) : M.run (n + 1) s = M.run n t := by
  rw [Host.Core.run, h]

theorem run_succ_of_step {s t : State} (h : step s = .next t) (n : Nat) :
    Sys2Proof.core.run (n + 1) s = Sys2Proof.core.run n t := coreRun_succ Sys2Proof.core s t h n

/-- Pending writes of IN from `IN[k]` up, run one step each, fill it. -/
theorem run_w8In (bs : List Byte) (rest : List Input) (n k : Nat) (s : State) (fits : k + bs.length ≤ Config.bufCap)
    (pending : s.inputs = bs.mapIdx (fun i b => w8In (k + i) b) ++ rest) :
    Sys2Proof.core.run (bs.length + n) s = Sys2Proof.core.run n ((s.fillIn k bs).setInputs rest) := by
  induction bs generalizing k s with
  | nil =>
    obtain rfl : s.inputs = rest := pending
    rw [List.length_nil, Nat.zero_add]
    rfl
  | cons b bs ih =>
    rw [List.length_cons] at fits ⊢
    rw [List.mapIdx_cons, List.cons_append] at pending
    have first : step s = .next ((s.setInputs _).setIn k b) :=
      (step_of_pending pending).trans (hostWrite_inByte _ k b (by omega))
    rw [Nat.add_right_comm, run_succ_of_step first, State.fillIn_cons]
    refine ih (k + 1) _ (by omega) ?_
    simp only [State.setIn_inputs, State.setInputs_inputs, Nat.add_assoc, Nat.add_comm 1]

/-- LOADIN is the writes of its bytes, then the write of IN_LEN (R94). -/
theorem run_loadIn (s : State) (bs : List Byte) (rest : List Input) (fits : bs.length ≤ Config.bufCap)
    (pending : s.inputs = loadIn bs ++ rest) :
    Sys2Proof.core.run (bs.length + 1) s
      = .next (((s.fillIn 0 bs).setInputs rest).setInLen (BitVec.ofNat 32 bs.length)) := by
  have writes : s.inputs
      = bs.mapIdx (fun i b => w8In (0 + i) b) ++ w32 .inLen (BitVec.ofNat 32 bs.length) :: rest := by
    simp only [pending, loadIn, List.append_assoc, Nat.zero_add, List.singleton_append]
  have last : step ((s.fillIn 0 bs).setInputs (w32 .inLen (BitVec.ofNat 32 bs.length) :: rest))
      = .next (((s.fillIn 0 bs).setInputs rest).setInLen (BitVec.ofNat 32 bs.length)) := by
    rw [step_of_pending rfl]
    exact hostWrite_reg _ .inLen _
  exact (run_w8In bs _ 1 0 s (by omega) writes).trans (run_succ_of_step last 0)

end Sys2Proof.Machine
end

section
/-! The obligations on the encodings: command words, prefixes, frames, operands and LOADIN (spec/30_encoding.md). -/

namespace Sys2Proof.Machine

/-- Settles O2: a word that decodes is the row it matched, and the six rows are the six encodings. -/
theorem decodeIffEncode : Obligations.DecodeIffEncode :=
  fun _ i => ⟨eq_encode_of_decode_eq_ok, fun e => e ▸ decode_encode i⟩

/-- Settles O3: `decode_error_iff` read in the fields of R80, and the write of CMD by `hostWrite_cmd`. -/
theorem illegalWordsExactly : Obligations.IllegalWordsExactly := by
  intro w
  refine ⟨(decode_error_iff w).trans (illegal_fields_iff w).symm, ?_, fun s ⟨e, illegal⟩ => ?_⟩
  · cases decode w with
    | ok i => exact .inl ⟨i, rfl⟩
    | error e => exact .inr ⟨e, rfl⟩
  · rw [hostWrite_cmd, runCommand, illegal, raiseError, Code.setsFault, Bool.or_true]

/-- Settles O1. -/
theorem commandWordsDecode : Obligations.CommandWordsDecode :=
  ⟨decode_encode .pack, decode_encode .unpack, decode_encode .ckgen, decode_encode .ckchk, decode_encode .fenc,
    decode_encode .fdec⟩

/-- Settles O23: the pair's number is below 64 exactly when b1's low 6 bits and b0's bits 5:4 are 0. -/
theorem nonCanonicalPairs : Obligations.NonCanonicalPairs := by
  intro b0 b1 rest least most
  have bound := b1.isLt
  refine ⟨_, unpack_tier2 b0 b1 rest least (Nat.lt_succ_of_le most), rfl, ?_, fun nonCanonical => ?_⟩
  · simp only [unpackPair_eq _ _ bound, NonCanonical, List.mem_cons, List.not_mem_nil, or_false]
    omega
  · simp only [NonCanonical, List.mem_cons, List.not_mem_nil, or_false] at nonCanonical
    rw [nonCanonicalPrefix_toNat]
    simp only [unpackPair_eq _ _ bound]
    omega

/-- Settles O29: a frame is `pack p ++ P` followed by the two checksum bytes. -/
theorem frameLayout : Obligations.FrameLayout := by
  intro p P _
  have len := length_frameEncode p P
  obtain ⟨ck0, ck1⟩ := frameEncode_last p P
  have body (i : Nat) (hi : i < (pack p).length + P.length) : (frameEncode p P)[i]? = (pack p ++ P)[i]? :=
    List.getElem?_append_left (by rwa [List.length_append])
  refine ⟨_, rfl, length_pack p, len, fun i hi => ?_, fun j hj => ?_, ?_, ?_⟩
  · rw [body i (by omega), List.getElem?_append_left hi]
  · rw [body _ (by omega), List.getElem?_append_right (by omega), Nat.add_sub_cancel_left]
  · rwa [len] at ck0
  · rwa [len] at ck1

/-- Settles O36: every command ends alike in both states, and the registers follow from the outputs. -/
theorem commandsReadOnlyTheirOperands : Obligations.CommandsReadOnlyTheirOperands := by
  intro i s s' operands outputs
  obtain ⟨t, t', e, e', same, out⟩ := exec_endsAlike i outputs operands
  exact ⟨t, t', e, e', same, same.readReg_eq, out⟩

/-- Settles O46: `run_loadIn`, whose last state differs from `s.fillIn 0 bs` in IN_LEN and the queue alone. -/
theorem loadInFillsBuffer : Obligations.LoadInFillsBuffer := by
  intro s bs rest fits pending
  have page : Config.bufCap ≤ 0x1000 := Config.bufCap_le_page
  have len : (BitVec.ofNat 32 bs.length).toNat = bs.length := by
    rw [BitVec.toNat_ofNat, Nat.mod_eq_of_lt (by omega)]
  exact ⟨_, run_loadIn s bs rest fits pending, rfl, len, message_fillIn s bs, inByte_fillIn_of_ge s bs, rfl⟩

end Sys2Proof.Machine
end

section
/-! SUPPORT. `pack` and `unpack` in numbers: what the fields of the wire bytes are worth, and how the two undo each other
(spec/30_encoding.md R85, R86, R92; spec/40_prefix_codec.md R110, R111). -/

namespace Sys2Proof.Machine

/-! ### Bit fields as numbers -/

theorem toNat_field (n : Nat) {w : Nat} (x : BitVec w) (start : Nat) :
    (x.extractLsb' start n).toNat = x.toNat / 2 ^ start % 2 ^ n := by
  rw [BitVec.extractLsb'_toNat, Nat.shiftRight_eq_div_pow]

theorem toNat_fields {n m : Nat} (x : BitVec n) (y : BitVec m) : (x ++ y).toNat = x.toNat * 2 ^ m + y.toNat := by
  rw [BitVec.toNat_append, ← Nat.shiftLeft_add_eq_or_of_lt y.isLt, Nat.shiftLeft_eq]

/-! ### pack -/

/-- The first tier-2 byte is the tag bit and p[7:2] (R86). -/
theorem packByte0_eq (p : Nat) : packByte0 p = 64 + p / 4 % 64 := by
  have field : (p &&& 0b11111100) >>> 2 = p / 4 % 64 := by
    rw [Nat.shiftRight_and_distrib, Nat.shiftRight_eq_div_pow]
    exact Nat.and_two_pow_sub_one_eq_mod _ 6
  have tag : p / 4 % 64 < 2 ^ 6 := Nat.mod_lt _ (by decide)
  rw [packByte0, field, Nat.or_comm]
  exact (Nat.shiftLeft_add_eq_or_of_lt tag 1).symm

/-- The second tier-2 byte is p[1:0] and p[13:8] (R86). -/
theorem packByte1_eq (p : Nat) (h : p < 16384) : packByte1 p = p % 4 * 64 + p / 256 := by
  have low : p >>> 8 < 2 ^ 6 := by rw [Nat.shiftRight_eq_div_pow]; omega
  rw [packByte1, Nat.or_comm, ← Nat.shiftLeft_add_eq_or_of_lt low, Nat.shiftLeft_eq, Nat.shiftRight_eq_div_pow,
    Nat.and_two_pow_sub_one_eq_mod _ 2]

/-- Tier 2 by the digits p[13:8], p[7:2] and p[1:0] of p. -/
theorem pack_tier2 (hi mid lo : Nat) (hhi : hi < 64) (hmid : mid < 64) (hlo : lo < 4)
    (least : 64 ≤ hi * 256 + mid * 4 + lo) :
    pack (hi * 256 + mid * 4 + lo) = [BitVec.ofNat 8 (64 + mid), BitVec.ofNat 8 (lo * 64 + hi)] := by
  have digits : (hi * 256 + mid * 4 + lo) / 4 % 64 = mid ∧ (hi * 256 + mid * 4 + lo) % 4 = lo ∧
      (hi * 256 + mid * 4 + lo) / 256 = hi := by omega
  obtain ⟨midDigit, loDigit, hiDigit⟩ := digits
  rw [pack_of_ge _ least, packByte0_eq, packByte1_eq _ (by omega), midDigit, loDigit, hiDigit]

theorem exists_prefix_digits (p : Nat) (h : p < 16384) :
    ∃ hi mid lo, hi < 64 ∧ mid < 64 ∧ lo < 4 ∧ p = hi * 256 + mid * 4 + lo :=
  ⟨p / 256, p / 4 % 64, p % 4, by omega, by omega, by omega, by omega⟩

/-- Tier 1 is the identity (R114). -/
theorem pack_tier1 (b : Byte) (h : b.toNat < 64) : pack b.toNat = [b] := by
  rw [pack_of_lt _ h, BitVec.ofNat_toNat, BitVec.setWidth_eq]

/-- The byte of R85. -/
theorem pack_eq_tier1Bytes (p : Word) (h : p.toNat < 64) : pack p.toNat = tier1Bytes p := by
  rw [pack_of_lt _ h, tier1Bytes, List.cons.injEq]
  refine ⟨BitVec.eq_of_toNat_eq ?_, rfl⟩
  rw [toNat_fields, toNat_field, BitVec.toNat_ofNat, BitVec.toNat_ofNat]
  omega

/-- The bytes of R86. -/
theorem pack_eq_tier2Bytes (p : Word) (least : 64 ≤ p.toNat) (most : p.toNat < 16384) :
    pack p.toNat = tier2Bytes p := by
  have hi : p.toNat / 2 ^ 8 < 2 ^ 6 := by omega
  rw [pack_of_ge _ least, packByte0_eq, packByte1_eq _ most, tier2Bytes, List.cons.injEq, List.cons.injEq]
  refine ⟨BitVec.eq_of_toNat_eq ?_, BitVec.eq_of_toNat_eq ?_, rfl⟩
  · rw [toNat_fields, toNat_field, BitVec.toNat_ofNat, BitVec.toNat_ofNat]
    omega
  · rw [toNat_fields, toNat_field, toNat_field, BitVec.toNat_ofNat, Nat.mod_eq_of_lt hi, Nat.mod_eq_of_lt (by omega),
      Nat.pow_zero, Nat.div_one]
    omega

/-! ### unpack -/

/-- The number a tier-2 pair stands for: b1's low 6 bits, b0's low 6 bits, b1's high 2 bits (R86). -/
def pairNumber (b0 b1 : Byte) : Nat := b1.toNat % 64 * 256 + b0.toNat % 64 * 4 + b1.toNat / 64

theorem pairNumber_lt (b0 b1 : Byte) : pairNumber b0 b1 < 16384 := by
  have := b1.isLt
  rw [pairNumber]
  omega

theorem unpack_pair (b0 b1 : Byte) (rest : List Byte) (least : 64 ≤ b0.toNat) (most : b0.toNat < 128) :
    unpack (b0 :: b1 :: rest) = .ok ⟨pairNumber b0 b1, 2⟩ := by
  rw [unpack_tier2 b0 b1 rest least most, unpackPair_eq _ _ b1.isLt, pairNumber]

/-- `unpack_ok_cases` with the pair's number. -/
theorem unpack_ok_values {bs : List Byte} {u : Unpacked} (h : unpack bs = .ok u) :
    (∃ b0 rest, bs = b0 :: rest ∧ b0.toNat < 64 ∧ u = ⟨b0.toNat, 1⟩) ∨
    (∃ b0 b1 rest, bs = b0 :: b1 :: rest ∧ 64 ≤ b0.toNat ∧ b0.toNat < 128 ∧
      u = ⟨pairNumber b0 b1, 2⟩) := by
  rcases unpack_ok_cases bs u h with one | ⟨b0, b1, rest, hbs, least, most, hu⟩
  · exact .inl one
  · rw [unpackPair_eq _ _ b1.isLt] at hu
    exact .inr ⟨b0, b1, rest, hbs, least, most, hu⟩

/-- The bound of R117. -/
theorem unpack_pfx_lt {bs : List Byte} {u : Unpacked} (h : unpack bs = .ok u) : u.pfx < 16384 := by
  rcases unpack_ok_values h with ⟨b0, _, _, tier1, rfl⟩ | ⟨b0, b1, _, _, _, _, rfl⟩
  · exact Nat.lt_trans tier1 (by decide)
  · exact pairNumber_lt b0 b1

/-- PREFIX_OUT of a tier-1 byte by its field (R85). -/
theorem ofNat_tier1Prefix (b0 : Byte) (h : b0.toNat < 64) :
    BitVec.ofNat 14 b0.toNat = 0b00000000#8 ++ b0.extractLsb' 0 6 := by
  apply BitVec.eq_of_toNat_eq
  rw [toNat_fields, toNat_field, BitVec.toNat_ofNat, BitVec.toNat_ofNat]
  omega

/-- PREFIX_OUT of a tier-2 pair by its fields (R86). -/
theorem ofNat_tier2Prefix (b0 b1 : Byte) : BitVec.ofNat 14 (pairNumber b0 b1) = tier2Prefix b0 b1 := by
  have lo : b1.toNat / 2 ^ 6 < 2 ^ 2 := by have := b1.isLt; omega
  apply BitVec.eq_of_toNat_eq
  rw [pairNumber, tier2Prefix, toNat_fields, toNat_fields, toNat_field, toNat_field, toNat_field, BitVec.toNat_ofNat,
    Nat.mod_eq_of_lt lo, Nat.mod_eq_of_lt (by omega), Nat.pow_zero, Nat.div_one, Nat.div_one]
  omega

/-! ### Round trips -/

theorem unpack_pack_append (p : Nat) (rest : List Byte) (h : p < 16384) :
    unpack (pack p ++ rest) = .ok ⟨p, (pack p).length⟩ := by
  rcases Nat.lt_or_ge p 64 with tier1 | tier2
  · have value : (BitVec.ofNat 8 p).toNat = p := by rw [BitVec.toNat_ofNat]; omega
    rw [pack_of_lt p tier1, List.singleton_append, unpack_tier1 _ _ (value.symm ▸ tier1), value]
    rfl
  · obtain ⟨hi, mid, lo, hhi, hmid, hlo, rfl⟩ := exists_prefix_digits p h
    have value0 : (BitVec.ofNat 8 (64 + mid)).toNat = 64 + mid := by rw [BitVec.toNat_ofNat]; omega
    have value1 : (BitVec.ofNat 8 (lo * 64 + hi)).toNat = lo * 64 + hi := by rw [BitVec.toNat_ofNat]; omega
    have digits : (lo * 64 + hi) % 64 = hi ∧ (64 + mid) % 64 = mid ∧ (lo * 64 + hi) / 64 = lo := by omega
    obtain ⟨hiDigit, midDigit, loDigit⟩ := digits
    rw [pack_tier2 hi mid lo hhi hmid hlo tier2, List.cons_append, List.singleton_append,
      unpack_pair _ _ _ (by omega) (by omega), pairNumber, value0, value1,
      hiDigit, midDigit, loDigit]
    rfl

theorem unpack_pack (p : Nat) (h : p < 16384) : unpack (pack p) = .ok ⟨p, (pack p).length⟩ := by
  simpa using unpack_pack_append p [] h

theorem pack_injective (p q : Nat) (hp : p < 16384) (hq : q < 16384) (h : pack p = pack q) : p = q := by
  have same := unpack_pack p hp
  rw [h, unpack_pack q hq] at same
  cases same
  rfl

/-- R92: the pair's number belongs to tier 1. -/
theorem nonCanonical_iff (b0 b1 : Byte) (least : 64 ≤ b0.toNat) (most : b0.toNat < 128) :
    NonCanonical b0 b1 ↔ pairNumber b0 b1 < 64 := by
  have := b1.isLt
  simp only [pairNumber, NonCanonical, List.mem_cons, List.not_mem_nil, or_false]
  omega

/-- `pack` gives a tier-2 pair back unless its number is too small for two bytes (R92, R115). -/
theorem pack_pair_iff (b0 b1 : Byte) (least : 64 ≤ b0.toNat) (most : b0.toNat < 128) :
    pack (pairNumber b0 b1) = [b0, b1] ↔ ¬ NonCanonical b0 b1 := by
  have := b1.isLt
  rw [nonCanonical_iff b0 b1 least most, Nat.not_lt]
  refine ⟨fun packed => ?_, fun large => ?_⟩
  · by_contra small
    have len := congrArg List.length packed
    rw [length_pack, if_pos (by omega)] at len
    cases len
  · have byte0 : 64 + b0.toNat % 64 = b0.toNat := by omega
    have byte1 : b1.toNat / 64 * 64 + b1.toNat % 64 = b1.toNat := by omega
    rw [pairNumber, pack_tier2 _ _ _ (by omega) (by omega) (by omega) large, byte0, byte1, BitVec.ofNat_toNat,
      BitVec.ofNat_toNat, BitVec.setWidth_eq, BitVec.setWidth_eq]

/-- The tier-1 image (R115). -/
theorem pack_eq_singleton_iff (b : Byte) : (∃ p, p < 16384 ∧ pack p = [b]) ↔ b.toNat < 64 := by
  refine ⟨fun ⟨p, hp, packed⟩ => ?_, fun tier1 => ⟨b.toNat, by omega, pack_tier1 b tier1⟩⟩
  have unpacked := unpack_pack p hp
  rw [packed] at unpacked
  rcases unpack_ok_cases _ _ unpacked with ⟨_, _, hbs, tier1, _⟩ | ⟨_, _, _, hbs, _⟩
  · cases hbs
    exact tier1
  · cases hbs

/-- The tier-2 image (R115). -/
theorem pack_eq_pair_iff (b0 b1 : Byte) :
    (∃ p, p < 16384 ∧ pack p = [b0, b1]) ↔ 64 ≤ b0.toNat ∧ b0.toNat ≤ 127 ∧ ¬ NonCanonical b0 b1 := by
  refine ⟨fun ⟨p, hp, packed⟩ => ?_, fun ⟨least, most, canonical⟩ => ?_⟩
  · have unpacked := unpack_pack p hp
    rw [packed] at unpacked
    rcases unpack_ok_values unpacked with ⟨_, _, _, _, hu⟩ | ⟨_, _, _, hbs, least, most, hu⟩
    · cases hu
    · cases hbs
      obtain ⟨rfl, -⟩ := Unpacked.mk.inj hu
      exact ⟨least, Nat.le_of_lt_succ most, (pack_pair_iff b0 b1 least most).1 packed⟩
  · have tier2 : b0.toNat < 128 := Nat.lt_succ_of_le most
    exact ⟨_, unpack_pfx_lt (unpack_pair b0 b1 [] least tier2), (pack_pair_iff b0 b1 least tier2).2 canonical⟩

/-- The reverse round trip (R115). -/
theorem pack_unpack_iff (bs : List Byte) (u : Unpacked) (h : unpack bs = .ok u) :
    pack u.pfx = bs.take u.off ↔ ¬ ∃ b0 b1 rest, bs = b0 :: b1 :: rest ∧ NonCanonical b0 b1 := by
  rcases unpack_ok_values h with ⟨b0, rest, rfl, tier1, rfl⟩ | ⟨b0, b1, rest, rfl, least, most, rfl⟩
  · refine iff_of_true (pack_tier1 b0 tier1) fun ⟨_, _, _, hbs, least, _⟩ => ?_
    cases hbs
    exact absurd tier1 (Nat.not_lt.2 least)
  · refine (pack_pair_iff b0 b1 least most).trans (not_congr ⟨fun bad => ⟨b0, b1, rest, rfl, bad⟩, ?_⟩)
    rintro ⟨_, _, _, hbs, bad⟩
    cases hbs
    exact bad

/-! ### The commands -/

/-- A PACK that succeeds (R112). -/
theorem exec_pack_writes (s : State) (h : s.prefixIn.toNat < 16384) :
    ∃ t, exec .pack s = .next t ∧ s.EndedOk t ∧ t.OutIs (pack s.prefixIn.toNat) ∧
      t.offset = BitVec.ofNat 2 (pack s.prefixIn.toNat).length ∧ t.prefixOut = s.prefixOut ∧ s.SameCksum t := by
  have fits : (pack s.prefixIn.toNat).length ≤ pageSize := (length_pack_range _).2.trans (by decide)
  exact ⟨_, execPack_ok s h, ⟨rfl, rfl, { s.sameInputs_storeOut _ fits with }⟩, { s.outIs_storeOut _ fits with },
    rfl, rfl, rfl, rfl⟩

/-- What UNPACK unpacks of one byte (R113). -/
theorem unpackOperand_one (s : State) (h : s.inLen.toNat = 1) : message s (min s.inLen.toNat 2) = [inByte s 0] := by
  rw [h]; rfl

theorem unpackOperand_two (s : State) (h : 2 ≤ s.inLen.toNat) :
    message s (min s.inLen.toNat 2) = [inByte s 0, inByte s 1] := by
  rw [Nat.min_eq_right h]; rfl

/-- UNPACK's operand begins with `IN[0]`. -/
theorem unpackOperand_cons (s : State) (h : 1 ≤ s.inLen.toNat) :
    ∃ rest, message s (min s.inLen.toNat 2) = inByte s 0 :: rest := by
  rcases Nat.lt_or_ge s.inLen.toNat 2 with one | two
  · exact ⟨_, unpackOperand_one s (by omega)⟩
  · exact ⟨_, unpackOperand_two s two⟩

/-- An error that sets no FAULT changes CODE alone (R173, R180). -/
theorem raiseError_of_not_setsFault {c : Code} (h : c.setsFault = false) (s : State) :
    raiseError c s = { s with code := c } := by
  rw [raiseError, h, Bool.or_false]

theorem exec_unpack_malformed (s : State) (fits : s.inLen.toNat ≤ Config.bufCap) (h0 : s.inLen.toNat ≠ 0)
    (e : Malformed) (he : unpack (message s (min s.inLen.toNat 2)) = .error e) :
    exec .unpack s = .next { s with code := e.code } := by
  obtain ⟨_, _, noFault⟩ := e.code_ne
  exact (execUnpack_error s fits h0 e he).trans (congrArg _ (raiseError_of_not_setsFault noFault s))

end Sys2Proof.Machine
end

section
/-! The obligations on `pack`, `unpack` and their commands (spec/40_prefix_codec.md). -/

namespace Sys2Proof.Machine

/-- Settles O18: PACK stores `pack` of PREFIX_IN, which is the bytes of R85 or R86 by its tier. -/
theorem packWritesPrefixBytes : Obligations.PackWritesPrefixBytes := by
  refine ⟨decode_encode .pack, fun s => ⟨fun tier1 => ?_, fun least most => ?_, fun outside => ?_⟩⟩
  · have writes := exec_pack_writes s (by omega)
    rwa [pack_eq_tier1Bytes s.prefixIn tier1] at writes
  · have writes := exec_pack_writes s most
    rwa [pack_eq_tier2Bytes s.prefixIn least most] at writes
  · refine (execPack_precond s outside).trans ?_
    rw [raiseError, Code.setsFault, Bool.or_true]

/-- Settles O19: each clause is one case of `execUnpack` with the case of `unpack` its leading byte selects. -/
theorem unpackReadsPrefix : Obligations.UnpackReadsPrefix := by
  refine ⟨decode_encode .unpack, fun s => ⟨fun long => ?_, fun empty => ?_, fun nonempty fits third => ?_,
    fun one least most => ?_, fun nonempty fits tier1 => ?_, fun two fits least most => ?_⟩⟩
  · exact (execUnpack_capacity s long).trans (congrArg _ (raiseError_of_not_setsFault rfl s))
  · exact (execUnpack_short s empty).trans (congrArg _ (raiseError_of_not_setsFault rfl s))
  · obtain ⟨rest, operand⟩ := unpackOperand_cons s nonempty
    exact exec_unpack_malformed s fits (by omega) .tier (operand ▸ unpack_tier _ rest third)
  · have fits : s.inLen.toNat ≤ Config.bufCap := by rw [Config.bufCap_eq]; omega
    exact exec_unpack_malformed s fits (by omega) .shortTier (unpackOperand_one s one ▸ unpack_shortTier _ least most)
  · obtain ⟨rest, operand⟩ := unpackOperand_cons s nonempty
    rw [← ofNat_tier1Prefix _ tier1]
    exact execUnpack_ok s fits (by omega) _ (operand ▸ unpack_tier1 _ rest tier1)
  · rw [← ofNat_tier2Prefix]
    exact execUnpack_ok s fits (by omega) _ (unpackOperand_two s two ▸ unpack_pair _ _ [] least most)

/-- Settles O20: the round trip with no byte following. -/
theorem unpackPackRoundTrip : Obligations.UnpackPackRoundTrip := unpack_pack

/-- Settles O21. -/
theorem unpackIgnoresLaterBytes : Obligations.UnpackIgnoresLaterBytes := unpack_pack_append

/-- Settles O22: injectivity, the two images and the reverse round trip. -/
theorem packImages : Obligations.PackImages :=
  ⟨pack_injective, pack_eq_singleton_iff, pack_eq_pair_iff, pack_unpack_iff⟩

/-- Settles O24: the bound of either tier; offset 1 is tier 1. -/
theorem unpackResultBounded : Obligations.UnpackResultBounded := by
  refine fun bs u h => ⟨unpack_pfx_lt h, unpack_off bs u h, fun off => ?_⟩
  rcases unpack_ok_cases bs u h with ⟨b0, _, _, tier1, rfl⟩ | ⟨_, _, _, _, _, _, rfl⟩
  · exact tier1
  · cases off

end Sys2Proof.Machine
end

section
/-! SUPPORT. Errors that change CODE alone, and the frames that `frame_decode` accepts: one with as many bytes before its
payload as `pack` makes is rebuilt from what was decoded (spec/41_checksum.md R135; spec/42_frame.md R150, R151; R173, R180). -/

namespace Sys2Proof.Machine

/-- A command that raises an error without FAULT changes CODE alone (R173, R180). -/
theorem exec_changes_code_alone {i : Instr} {s : State} {c : Code} (h : exec i s = .next (raiseError c s))
    (noFault : c.setsFault = false) : exec i s = .next { s with code := c } :=
  h.trans (congrArg _ (raiseError_of_not_setsFault noFault s))

/-- A number unpacked from as many bytes as `pack` makes of it has been read from those very bytes: a pair of R92 stands for a
number below 64, of which `pack` makes one byte. -/
theorem pack_eq_take_of_unpack {bs : List Byte} {u : Unpacked} (h : unpack bs = .ok u)
    (len : u.off = (pack u.pfx).length) : pack u.pfx = bs.take u.off := by
  rcases unpack_ok_values h with ⟨b0, _, rfl, tier1, rfl⟩ | ⟨b0, b1, _, rfl, least, most, rfl⟩
  · exact pack_tier1 b0 tier1
  · refine (pack_pair_iff b0 b1 least most).2 fun nonCanonical => ?_
    rw [length_pack, if_pos ((nonCanonical_iff b0 b1 least most).1 nonCanonical)] at len
    cases len

/-- A decoded frame with as many bytes before its payload as `pack` makes is the frame that R151 builds from
what was decoded. -/
theorem frameEncode_of_frameDecode {F : List Byte} {d : Decoded} (h : frameDecode F = .ok d)
    (len : d.off = (pack d.pfx).length) : frameEncode d.pfx d.payload = F := by
  obtain ⟨_, unpacked, fits, payload, ck, ends⟩ := frameDecode_ok F d h
  have prefixBytes : pack d.pfx = (F.take (F.length - 2)).take d.off := by
    rw [pack_eq_take_of_unpack unpacked len, List.take_take, Nat.min_eq_left (by omega)]
  have body : pack d.pfx ++ d.payload = F.take (F.length - 2) := by
    rw [prefixBytes, payload, List.take_append_drop]
  rw [frameEncode, body, ← ck]
  exact ends.symm

end Sys2Proof.Machine
end

section
/-! The obligations on the checksum engine and on the checksum's protection of frames (spec/41_checksum.md). -/

namespace Sys2Proof.Machine

/-- Settles O25: `setCksum` writes the two bytes of `checksum`, and ERR_CAPACITY sets no FAULT. -/
theorem checksumGenerated : Obligations.ChecksumGenerated := by
  refine ⟨decode_encode .ckgen, fun s => ⟨fun fits => ?_, fun long => ?_⟩⟩
  · exact execCkgen_ok s fits
  · exact exec_changes_code_alone (execCkgen_capacity s long) rfl

/-- Settles O26: on success the computed checksum is the frame's last two bytes, so CKSUM may be stated by either. -/
theorem checksumVerified : Obligations.ChecksumVerified := by
  refine ⟨decode_encode .ckchk, fun s => ⟨fun long => ?_, fun short => ?_, fun two fits differs => ?_,
    fun two fits same0 same1 => ?_⟩⟩
  · exact exec_changes_code_alone (execCkchk_capacity s long) rfl
  · exact exec_changes_code_alone (execCkchk_short s short) rfl
  · exact exec_changes_code_alone (execCkchk_mismatch s fits two (not_and_or.2 differs)) rfl
  · rw [← same0, ← same1]
    exact execCkchk_ok s fits two ⟨same0, same1⟩

/-- Settles O33: equal lengths and equal payloads leave as many bytes before the payload as `pack` makes, so the altered frame
would be the original one. -/
theorem alteredFrameNeverDecodesToOriginal : Obligations.AlteredFrameNeverDecodesToOriginal := by
  rintro _ _ F' _ len altered d decoded ⟨rfl, rfl⟩
  obtain ⟨_, _, fits, _⟩ := frameDecode_ok F' d decoded
  have payload := frameDecode_payload_length F' d decoded
  rw [length_frameEncode] at len
  exact altered (frameEncode_of_frameDecode decoded (by omega)).symm

end Sys2Proof.Machine
end

section
/-! SUPPORT. What `frame_decode` answers, case by case, and how it reads the message in IN (spec/42_frame.md R150, R155,
R157). -/

namespace Sys2Proof.Machine

/-! ### frame_decode on any byte string -/

theorem frameDecode_short {F : List Byte} (h : F.length < 3) : frameDecode F = .error .short := if_pos h

theorem frameDecode_tier {F : List Byte} {b0 : Byte} (len : 3 ≤ F.length) (leading : F[0]? = some b0)
    (third : 128 ≤ b0.toNat) : frameDecode F = .error .tier := by
  simp only [frameDecode, leading, Option.getD_some, Config.minFrame, Config.tier2Limit, if_neg (Nat.not_lt.2 len),
    if_pos third]

/-- A 3-byte frame has no room for a tier-2 pair, whatever its checksum (R157). -/
theorem frameDecode_shortTier {F : List Byte} {b0 : Byte} (len : F.length = 3) (leading : F[0]? = some b0)
    (least : 64 ≤ b0.toNat) (most : b0.toNat < 128) : frameDecode F = .error .shortTier := by
  have room : ¬ F.length < 3 ∧ F.length < 4 := by omega
  obtain ⟨long, small⟩ := room
  simp only [frameDecode, leading, Option.getD_some, Config.minFrame, Config.tier2Limit, Config.tier1Limit, if_neg long,
    if_neg (Nat.not_le.2 most), if_pos (And.intro least small)]

/-- A frame that unpacks, but does not end with its checksum. -/
theorem frameDecode_checksum {F : List Byte} {u : Unpacked} (unpacked : unpack F = .ok u) (fits : u.off + 2 ≤ F.length)
    (differs : ¬ endsWith F (checksum (F.take (F.length - 2)))) : frameDecode F = .error .checksum := by
  have long : ¬ F.length < 3 := by have := unpack_off F u unpacked; omega
  have leading : ¬ 128 ≤ (F[0]?.getD 0).toNat ∧ ¬ (64 ≤ (F[0]?.getD 0).toNat ∧ F.length < 4) := by
    rcases unpack_ok_cases F u unpacked with ⟨b0, rest, rfl, tier1, rfl⟩ | ⟨b0, b1, rest, rfl, least, most, rfl⟩
    · exact ⟨Nat.not_le.2 (Nat.lt_trans tier1 (by decide)), fun h => Nat.not_le.2 tier1 h.1⟩
    · exact ⟨Nat.not_le.2 most, fun h => Nat.not_le.2 h.2 fits⟩
  obtain ⟨notThird, room⟩ := leading
  simp only [frameDecode, Config.minFrame, Config.tier2Limit, Config.tier1Limit, if_neg long, if_neg notThird,
    if_neg room, unpacked, if_neg differs]

/-- What stands before the checksum of a built frame (R151). -/
theorem take_frameEncode (p : Nat) (P : List Byte) :
    (frameEncode p P).take ((frameEncode p P).length - 2) = pack p ++ P := by
  rw [length_frameEncode, Nat.add_sub_cancel, ← List.length_append]
  exact List.take_left

/-- Decoding undoes encoding, for every digest (R155). -/
theorem frameDecode_frameEncode (p : Nat) (P : List Byte) (h : p < 16384) :
    frameDecode (frameEncode p P) = .ok ⟨p, (pack p).length, P, checksum (pack p ++ P)⟩ := by
  have unpacked : unpack (frameEncode p P) = .ok ⟨p, (pack p).length⟩ := by
    rw [frameEncode, List.append_assoc]
    exact unpack_pack_append p _ h
  have body := take_frameEncode p P
  have room : (pack p).length + 2 ≤ (frameEncode p P).length := by rw [length_frameEncode]; omega
  have decoded := frameDecode_eq_ok _ _ unpacked room (by rw [body]; rfl)
  rwa [body, List.drop_left] at decoded

/-! ### frame_decode on the message in IN -/

variable {s : State} {n : Nat}

theorem message_eq_append (s : State) (n k : Nat) (h : k ≤ n) : message s n = message s k ++ (message s n).drop k := by
  rw [← take_message s n k h, List.take_append_drop]

theorem unpack_message_tier1 (h : 1 ≤ n) (tier1 : (inByte s 0).toNat < 64) :
    unpack (message s n) = .ok ⟨(inByte s 0).toNat, 1⟩ := by
  rw [message_eq_append s n 1 h]
  exact unpack_tier1 _ _ tier1

theorem unpack_message_tier2 (h : 2 ≤ n) (least : 64 ≤ (inByte s 0).toNat) (most : (inByte s 0).toNat < 128) :
    unpack (message s n) = .ok ⟨pairNumber (inByte s 0) (inByte s 1), 2⟩ := by
  rw [message_eq_append s n 2 h]
  exact unpack_pair _ _ _ least most

/-- The last two bytes of the message are the pair `c` (R90). -/
theorem endsWith_message_iff (h : 2 ≤ n) (c : Byte × Byte) :
    endsWith (message s n) c = true ↔ c.1 = inByte s (n - 2) ∧ c.2 = inByte s (n - 1) := by
  rw [endsWith, length_message, getElem?_message _ _ _ (by omega), getElem?_message _ _ _ (by omega),
    Bool.and_eq_true, beq_iff_eq, beq_iff_eq, Option.some.injEq, Option.some.injEq, eq_comm, eq_comm (a := c.2)]

theorem frameDecode_message_checksum {u : Unpacked} (unpacked : unpack (message s n) = .ok u) (fits : u.off + 2 ≤ n)
    (differs : ck0Of (message s (n - 2)) ≠ inByte s (n - 2) ∨ ck1Of (message s (n - 2)) ≠ inByte s (n - 1)) :
    frameDecode (message s n) = .error .checksum := by
  refine frameDecode_checksum unpacked (by rwa [length_message]) ?_
  rw [length_message, take_message s n _ (Nat.sub_le _ _), endsWith_message_iff (by omega)]
  exact not_and_or.2 differs

theorem frameDecode_message_ok {u : Unpacked} (unpacked : unpack (message s n) = .ok u) (fits : u.off + 2 ≤ n)
    (same0 : ck0Of (message s (n - 2)) = inByte s (n - 2)) (same1 : ck1Of (message s (n - 2)) = inByte s (n - 1)) :
    frameDecode (message s n)
      = .ok ⟨u.pfx, u.off, (message s (n - 2)).drop u.off, (inByte s (n - 2), inByte s (n - 1))⟩ := by
  have body : (message s n).take ((message s n).length - 2) = message s (n - 2) := by
    rw [length_message, take_message s n _ (Nat.sub_le _ _)]
  have ends := (endsWith_message_iff (by omega) (checksum (message s (n - 2)))).2 ⟨same0, same1⟩
  have decoded := frameDecode_eq_ok _ u unpacked (by rwa [length_message])
    ((endsWith_iff _ _ (by rw [length_message]; omega)).1 (body.symm ▸ ends))
  rw [body] at decoded
  rw [decoded, ← same0, ← same1]
  rfl

end Sys2Proof.Machine
end

section
/-! SUPPORT. What FENC and FDEC leave when they succeed, and the errors of FDEC (spec/42_frame.md R152, R154). -/

namespace Sys2Proof.Machine

variable {s : State}

/-- The bytes of R85 or R86 by their fields, in either tier (spec/30_encoding.md). -/
theorem pack_eq_fieldBytes (p : Word) (h : p.toNat < 16384) :
    pack p.toNat = if p.toNat < 64 then tier1Bytes p else tier2Bytes p := by
  rcases Nat.lt_or_ge p.toNat 64 with tier1 | tier2
  · rw [if_pos tier1, pack_eq_tier1Bytes p tier1]
  · rw [if_neg (Nat.not_lt.2 tier2), pack_eq_tier2Bytes p tier2 h]

/-- A FENC that succeeds (R152). -/
theorem exec_fenc_writes (hp : s.prefixIn.toNat < 16384) (hn : s.inLen.toNat ≤ Config.maxPayload) :
    ∃ t, exec .fenc s = .next t ∧ s.EndedOk t ∧ t.OutIs (frameEncode s.prefixIn.toNat (message s s.inLen.toNat)) ∧
      t.offset = BitVec.ofNat 2 (pack s.prefixIn.toNat).length ∧
      (t.ck0, t.ck1) = checksum (pack s.prefixIn.toNat ++ message s s.inLen.toNat) ∧ t.prefixOut = s.prefixOut := by
  have fits := (length_frame_le s s.prefixIn.toNat _ hn).trans Config.bufCap_le_page
  exact ⟨_, execFenc_ok s hp hn, ⟨rfl, rfl, { s.sameInputs_storeOut _ fits with }⟩, { s.outIs_storeOut _ fits with },
    rfl, rfl, rfl⟩

/-- An FDEC that succeeds (R154). -/
theorem exec_fdec_writes {d : Decoded} (fits : s.inLen.toNat ≤ Config.bufCap)
    (decoded : frameDecode (message s s.inLen.toNat) = .ok d) (small : d.payload.length ≤ Config.maxPayload) :
    ∃ t, exec .fdec s = .next t ∧ s.EndedOk t ∧ t.OutIs d.payload ∧ t.prefixOut = BitVec.ofNat 14 d.pfx ∧
      t.offset = BitVec.ofNat 2 d.off ∧ t.ck0 = d.ck.1 ∧ t.ck1 = d.ck.2 := by
  have page : d.payload.length ≤ pageSize :=
    (small.trans (Nat.le_add_right _ 4)).trans Config.bufCap_le_page
  exact ⟨_, execFdec_ok s fits d decoded small, ⟨rfl, rfl, { s.sameInputs_storeOut _ page with }⟩,
    { s.outIs_storeOut _ page with }, rfl, rfl, rfl, rfl⟩

/-- A malformed frame changes CODE alone (R154, R180). -/
theorem exec_fdec_malformed {e : Malformed} (fits : s.inLen.toNat ≤ Config.bufCap)
    (he : frameDecode (message s s.inLen.toNat) = .error e) : exec .fdec s = .next { s with code := e.code } := by
  obtain ⟨_, _, noFault⟩ := e.code_ne
  exact exec_changes_code_alone (execFdec_error s fits e he) noFault

/-- IN holds what OUT held. -/
theorem State.OutIs.message_eq {t u : State} {bs : List Byte} (h : t.OutIs bs) (len : u.inLen = t.outLen)
    (copied : ∀ i, i < t.outLen.toNat → t.mem.read (outBase + i) = some (inByte u i)) :
    message u u.inLen.toNat = bs := by
  obtain ⟨outLen, bytes⟩ := h
  rw [outLen] at copied
  rw [len, outLen]
  refine List.ext_getElem? fun i => ?_
  rcases Nat.lt_or_ge i bs.length with inside | outside
  · rw [getElem?_message _ _ _ inside, ← copied i inside, bytes i inside]
  · rw [List.getElem?_eq_none outside, List.getElem?_eq_none (by rwa [length_message])]

/-- CKCHK accepts every message that `frame_decode` accepts, with the same checksum (R134, R150). -/
theorem exec_ckchk_of_frameDecode {d : Decoded} (fits : s.inLen.toNat ≤ Config.bufCap)
    (decoded : frameDecode (message s s.inLen.toNat) = .ok d) :
    exec .ckchk s = .next (finish (s.setCksum d.ck)) := by
  obtain ⟨long, _, _, _, ck, ends⟩ := frameDecode_ok _ d decoded
  have body := take_message s s.inLen.toNat (s.inLen.toNat - 2) (Nat.sub_le _ _)
  have same := (endsWith_iff _ d.ck (by omega)).2 ends
  rw [length_message] at long ck
  rw [endsWith_message_iff (by omega), ck, body] at same
  rw [ck, body]
  exact execCkchk_ok s fits (by omega) same

end Sys2Proof.Machine
end

section
/-! The obligations on frames (spec/42_frame.md). -/

namespace Sys2Proof.Machine

/-- Settles O27: FENC stores `frameEncode` of its operands, which begins with the bytes of R85 or R86. -/
theorem frameBuilt : Obligations.FrameBuilt := by
  refine ⟨decode_encode .fenc, fun s => ⟨fun outside => ?_, fun most long => ?_, fun most fits => ?_⟩⟩
  · refine (execFenc_precond s outside).trans ?_
    rw [raiseError, Code.setsFault, Bool.or_true]
  · exact exec_changes_code_alone (execFenc_capacity s most long) rfl
  · obtain ⟨t, writes, ended, out, offset, ck, prefixOut⟩ := exec_fenc_writes most fits
    obtain ⟨ck0, ck1⟩ := Prod.mk.inj ck
    rw [length_pack] at offset
    exact ⟨t, _, writes, congrArg (· ++ _) (pack_eq_fieldBytes _ most), ended, out,
      offset.trans (apply_ite (BitVec.ofNat 2) _ 1 2), ck0, ck1, prefixOut⟩

/-- Settles O28: each clause is one case of `frameDecode` on the message, selected by the length, the leading byte and the
last two bytes. -/
theorem frameDecoded : Obligations.FrameDecoded := by
  refine ⟨decode_encode .fdec, ?_⟩
  rintro s _ rfl
  have cap := Config.bufCap_eq
  have leading (h : 3 ≤ s.inLen.toNat) := getElem?_message s s.inLen.toNat 0 (by omega)
  have payload (off : Nat) : ((message s (s.inLen.toNat - 2)).drop off).length = s.inLen.toNat - 2 - off := by
    rw [List.length_drop, length_message]
  refine ⟨fun long => ?_, fun short => ?_, fun three fits third => ?_, fun three least most => ?_,
    fun three fits lead differs => ?_, fun three fits tier1 same0 same1 large => ?_,
    fun three fits tier1 same0 same1 small => ?_, fun four fits least most same0 same1 => ?_⟩
  · exact exec_changes_code_alone (execFdec_capacity s long) rfl
  · exact exec_fdec_malformed (by omega) (frameDecode_short (by rwa [length_message]))
  · exact exec_fdec_malformed fits (frameDecode_tier (by rwa [length_message]) (leading three) third)
  · exact exec_fdec_malformed (by omega)
      (frameDecode_shortTier (by rwa [length_message]) (leading (by omega)) least most)
  · refine exec_fdec_malformed fits (e := .checksum) ?_
    rcases Nat.lt_or_ge (inByte s 0).toNat 64 with tier1 | tier2
    · exact frameDecode_message_checksum (unpack_message_tier1 (by omega) tier1) three differs
    · obtain ⟨most, four⟩ := lead.resolve_left (Nat.not_lt.2 tier2)
      exact frameDecode_message_checksum (unpack_message_tier2 (by omega) tier2 most) four differs
  · have decoded := frameDecode_message_ok (unpack_message_tier1 (by omega) tier1) three same0 same1
    exact exec_changes_code_alone (execFdec_payload s fits _ decoded (large.trans_eq (payload 1).symm)) rfl
  · have decoded := frameDecode_message_ok (unpack_message_tier1 (by omega) tier1) three same0 same1
    rw [← ofNat_tier1Prefix _ tier1]
    exact exec_fdec_writes fits decoded ((payload 1).trans_le small)
  · have decoded := frameDecode_message_ok (unpack_message_tier2 (by omega) least most) four same0 same1
    rw [← ofNat_tier2Prefix]
    exact exec_fdec_writes fits decoded ((payload 2).trans_le (by omega))

/-- Settles O30. -/
theorem frameRoundTrip : Obligations.FrameRoundTrip := frameDecode_frameEncode

/-- Settles O31: the second state's message is the frame FENC built, which decodes to what FENC was given. -/
theorem fencThenFdecReturnsAddress : Obligations.FencThenFdecReturnsAddress := by
  intro s t u most fits built len copied
  obtain ⟨t', writes, _, out, offset, ck, _⟩ := exec_fenc_writes most fits
  rw [built] at writes
  cases writes
  have frame := out.message_eq len copied
  have fitsIn : u.inLen.toNat ≤ Config.bufCap := by
    rw [← length_message u u.inLen.toNat, frame]
    exact length_frame_le s _ _ fits
  have decoded := frameDecode_frameEncode s.prefixIn.toNat (message s s.inLen.toNat) most
  rw [← frame, ← ck] at decoded
  obtain ⟨v, reads, ended, payload, prefixOut, off, ck0, ck1⟩ :=
    exec_fdec_writes fitsIn decoded (by rwa [length_message])
  have prefixBack : readReg v .prefixOut = some s.prefixIn := by
    rw [readReg_prefixOut, prefixOut, Option.some.injEq]
    apply BitVec.eq_of_toNat_eq
    rw [BitVec.toNat_setWidth, BitVec.toNat_ofNat, Nat.mod_eq_of_lt most, Nat.mod_eq_of_lt s.prefixIn.isLt]
  exact ⟨⟨v, reads, ended.code, prefixBack, payload, off.trans offset.symm, ck0, ck1⟩,
    ⟨_, exec_ckchk_of_frameDecode fitsIn decoded, rfl, rfl, rfl⟩⟩

/-- Settles O32: the stored frame is a function of the operands, which are the same in both states. -/
theorem fencDeterministic : Obligations.FencDeterministic := by
  intro s s' t t' prefixIn inLen bytes most fits built built'
  obtain ⟨_, writes, _, out, offset, ck, _⟩ := exec_fenc_writes most fits
  obtain ⟨_, writes', _, out', offset', ck', _⟩ := exec_fenc_writes (s := s') (prefixIn ▸ most) (inLen ▸ fits)
  rw [built] at writes
  rw [built'] at writes'
  cases writes
  cases writes'
  rw [← prefixIn, ← inLen, ← message_congr s s' _ bytes] at out' ck'
  rw [← prefixIn] at offset'
  obtain ⟨ck0, ck1⟩ := Prod.mk.inj (ck.trans ck'.symm)
  obtain ⟨len, read⟩ := out
  obtain ⟨len', read'⟩ := out'
  refine ⟨BitVec.eq_of_toNat_eq (len.trans len'.symm), offset.trans offset'.symm, ck0, ck1, fun i hi => ?_⟩
  rw [len] at hi
  refine ⟨(read i hi).trans (read' i hi).symm, ?_⟩
  rw [read i hi, List.getElem?_eq_getElem hi]
  rfl

end Sys2Proof.Machine
end

section
/-! SUPPORT. How each command, and any write of CMD, ends: with `finish()`, or with one of the errors R176 gives it; and what
that does to STATUS (spec/60_exceptions.md R170 to R180). -/

namespace Sys2Proof.Machine

variable {i : Instr} {s t : State}

/-- From `s` the command finishes, or raises one of `errors`. -/
def EndsOkOr (errors : List Code) (i : Instr) (s : State) : Prop :=
  (∃ c ∈ errors, exec i s = .next (raiseError c s)) ∨ ∃ u, exec i s = .next (finish u)

theorem EndsOkOr.of_raise {errors : List Code} {c : Code} (e : exec i s = .next (raiseError c s)) (hc : c ∈ errors) :
    EndsOkOr errors i s := .inl ⟨c, hc, e⟩

theorem EndsOkOr.of_finish {errors : List Code} {u : State} (e : exec i s = .next (finish u)) : EndsOkOr errors i s :=
  .inr ⟨u, e⟩

theorem EndsOkOr.code_mem {errors : List Code} (h : EndsOkOr errors i s) (ht : exec i s = .next t) :
    t.code ∈ .ok :: errors := by
  rcases h with ⟨c, hc, e⟩ | ⟨u, e⟩
  · rw [e] at ht; cases ht
    exact List.mem_cons_of_mem _ hc
  · rw [e] at ht; cases ht
    exact List.mem_cons_self

theorem execPack_endsOkOr (s : State) : EndsOkOr [.errPrecond] .pack s := by
  rcases Nat.lt_or_ge s.prefixIn.toNat 16384 with valid | invalid
  · exact .of_finish (execPack_ok s valid)
  · exact .of_raise (execPack_precond s invalid) (by decide)

/-- The codes of the malformed prefixes that `unpack` finds (R111). -/
theorem unpack_error_code_mem {bs : List Byte} {e : Malformed} (h : unpack bs = .error e) :
    e.code ∈ [.errShort, .errTier, .errShortTier] := by
  rcases unpack_error_code bs e h with rfl | rfl | rfl
  · decide
  · decide
  · decide

theorem execUnpack_endsOkOr (s : State) : EndsOkOr [.errCapacity, .errShort, .errTier, .errShortTier] .unpack s := by
  rcases Nat.lt_or_ge Config.bufCap s.inLen.toNat with long | fits
  · exact .of_raise (execUnpack_capacity s long) (by decide)
  by_cases empty : s.inLen.toNat = 0
  · exact .of_raise (execUnpack_short s empty) (by decide)
  cases unpacked : unpack (message s (min s.inLen.toNat 2)) with
  | error e =>
    exact .of_raise (execUnpack_error s fits empty e unpacked) (List.mem_cons_of_mem _ (unpack_error_code_mem unpacked))
  | ok u => exact .of_finish (execUnpack_ok s fits empty u unpacked)

theorem execCkgen_endsOkOr (s : State) : EndsOkOr [.errCapacity] .ckgen s := by
  rcases Nat.lt_or_ge Config.bufCap s.inLen.toNat with long | fits
  · exact .of_raise (execCkgen_capacity s long) (by decide)
  · exact .of_finish (execCkgen_ok s fits)

theorem execCkchk_endsOkOr (s : State) : EndsOkOr [.errCapacity, .errShort, .errChecksum] .ckchk s := by
  rcases Nat.lt_or_ge Config.bufCap s.inLen.toNat with long | fits
  · exact .of_raise (execCkchk_capacity s long) (by decide)
  rcases Nat.lt_or_ge s.inLen.toNat 2 with short | two
  · exact .of_raise (execCkchk_short s short) (by decide)
  by_cases same : (checksum (message s (s.inLen.toNat - 2))).1 = inByte s (s.inLen.toNat - 2) ∧
      (checksum (message s (s.inLen.toNat - 2))).2 = inByte s (s.inLen.toNat - 1)
  · exact .of_finish (execCkchk_ok s fits two same)
  · exact .of_raise (execCkchk_mismatch s fits two same) (by decide)

theorem execFenc_endsOkOr (s : State) : EndsOkOr [.errPrecond, .errCapacity] .fenc s := by
  rcases Nat.lt_or_ge s.prefixIn.toNat 16384 with valid | invalid
  · rcases Nat.lt_or_ge Config.maxPayload s.inLen.toNat with long | fits
    · exact .of_raise (execFenc_capacity s valid long) (by decide)
    · exact .of_finish (execFenc_ok s valid fits)
  · exact .of_raise (execFenc_precond s invalid) (by decide)

/-- The four codes of malformed input (R171). -/
theorem Malformed.code_mem (e : Malformed) : e.code ∈ [.errShort, .errTier, .errShortTier, .errChecksum] := by
  cases e <;> decide

theorem execFdec_endsOkOr (s : State) :
    EndsOkOr [.errCapacity, .errShort, .errTier, .errShortTier, .errChecksum] .fdec s := by
  rcases Nat.lt_or_ge Config.bufCap s.inLen.toNat with long | fits
  · exact .of_raise (execFdec_capacity s long) (by decide)
  cases decoded : frameDecode (message s s.inLen.toNat) with
  | error e => exact .of_raise (execFdec_error s fits e decoded) (List.mem_cons_of_mem _ e.code_mem)
  | ok d =>
    rcases Nat.lt_or_ge Config.maxPayload d.payload.length with large | small
    · exact .of_raise (execFdec_payload s fits d decoded large) (by decide)
    · exact .of_finish (execFdec_ok s fits d decoded small)

/-- A write of CMD completes, with an error or with `finish()` on a state whose FAULT is the old one (R34, R178). -/
theorem runCommand_ends (w : Word) (s : State) :
    (∃ c, runCommand w s = .next (raiseError c s)) ∨
    ∃ u, runCommand w s = .next (finish u) ∧ u.fault = s.fault := by
  rcases runCommand_cases s w with ⟨i, _, run⟩ | ⟨_, illegal⟩
  · rcases exec_cases s i with ⟨c, _, _, e⟩ | ⟨u, e, _, _, fault, _⟩
    · exact .inl ⟨c, run.trans e⟩
    · exact .inr ⟨u, run.trans e, fault⟩
  · exact .inl ⟨.errIllegal, illegal⟩

/-- The two codes of R173, by comparison. -/
theorem Code.setsFault_eq (c : Code) : c.setsFault = (c == .errPrecond || c == .errIllegal) := by
  cases c <;> rfl

theorem Code.setsFault_iff (c : Code) : c.setsFault = true ↔ c = .errPrecond ∨ c = .errIllegal := by
  rw [c.setsFault_eq, Bool.or_eq_true, beq_iff_eq, beq_iff_eq]

/-- The only steps that can change FAULT are a reset and a 4-byte write at CMD. -/
theorem step_fault_cases (s t : State) (h : step s = .next t) :
    t.fault = s.fault ∨ ((∃ rest, s.inputs = .reset :: rest) ∧ t.fault = false) ∨
    ∃ w rest, s.inputs = .write 0x000 4 w :: rest ∧ runCommand (BitVec.ofNat 32 w) (s.setInputs rest) = .next t := by
  rcases step_cases s t h with
    ⟨_, rfl⟩ | ⟨off, n, rest, _, read⟩ | ⟨off, n, v, rest, pending, write⟩ | ⟨rest, pending, rfl⟩
  · exact .inl rfl
  · obtain ⟨o, rfl | rfl⟩ := hostRead_next off n _ t read
    · exact .inl rfl
    · exact .inl rfl
  · rcases hostWrite_next off n v _ t write with ⟨rfl, rfl, _, run⟩ | rfl | rfl | ⟨i, _, rfl⟩
    · exact .inr (.inr ⟨v, rest, pending, run⟩)
    · exact .inl rfl
    · exact .inl rfl
    · exact .inl rfl
  · exact .inr (.inl ⟨⟨rest, pending⟩, rfl⟩)

end Sys2Proof.Machine
end

section
/-! The obligations on errors and on FAULT (spec/60_exceptions.md R170 to R180). -/

namespace Sys2Proof.Machine

/-- Settles O13: each command by the errors its row of R176 lists. -/
theorem codesRaisedByCommand : Obligations.CodesRaisedByCommand := fun s _ =>
  ⟨(execPack_endsOkOr s).code_mem, (execUnpack_endsOkOr s).code_mem, (execCkgen_endsOkOr s).code_mem,
    (execCkchk_endsOkOr s).code_mem, (execFenc_endsOkOr s).code_mem, (execFdec_endsOkOr s).code_mem⟩

/-- Settles O14: an error is `raiseError`, which writes STATUS alone. -/
theorem errorsAreAllOrNothing : Obligations.ErrorsAreAllOrNothing := by
  intro w s
  rcases runCommand_ends w s with ⟨c, run⟩ | ⟨u, run, _⟩
  · refine ⟨_, run, .inr ?_⟩
    rw [raiseError_code, ← c.setsFault_eq]
    rfl
  · exact ⟨_, run, .inl rfl⟩

/-- Settles O15: `raiseError` adds the code's FAULT to the old one, `finish()` keeps FAULT and leaves OK. -/
theorem faultSetByPrecondAndIllegal : Obligations.FaultSetByPrecondAndIllegal := by
  intro w s t h
  rcases runCommand_ends w s with ⟨c, run⟩ | ⟨u, run, kept⟩
  · rw [run] at h; cases h
    rw [raiseError_fault, raiseError_code, Bool.or_eq_true, c.setsFault_iff]
  · rw [run] at h; cases h
    rw [finish_fault, finish_code, kept]
    exact (or_iff_left (by decide)).symm

/-- Settles O16: a step that changes FAULT is a reset, which clears it, or a write of CMD, which only sets it. -/
theorem faultIsSticky : Obligations.FaultIsSticky := by
  intro s t h
  rcases step_fault_cases s t h with kept | ⟨reset, cleared⟩ | ⟨w, rest, pending, run⟩
  · rw [kept]
    exact ⟨fun was now => absurd (now.symm.trans was) Bool.false_ne_true,
      fun was now => absurd (was.symm.trans now) Bool.false_ne_true⟩
  · exact ⟨fun _ _ => reset, fun _ now => absurd (cleared.symm.trans now) Bool.false_ne_true⟩
  · have fault := faultSetByPrecondAndIllegal _ _ t run
    rw [State.setInputs_fault] at fault
    refine ⟨fun was now => ?_, fun was now => ⟨?_, w, rest, pending⟩⟩
    · exact absurd (now.symm.trans (fault.2 (.inl was))) Bool.false_ne_true
    · exact (fault.1 now).resolve_left fun still => Bool.false_ne_true (was.symm.trans still)

end Sys2Proof.Machine
end

section
/-! SUPPORT. Which accesses the rights of the registers and of the windows allow (spec/20_memory.md R53, R57, R58), and that
the others are bus errors (spec/60_exceptions.md R182). -/

namespace Sys2Proof.Machine

/-- The registers a host can read (R58). -/
def readableRegs : List Reg := [.status, .prefixIn, .inLen, .prefixOut, .offset, .cksum, .outLen, .cap]

/-- The registers a host can write (R58). -/
def writableRegs : List Reg := [.cmd, .prefixIn, .inLen]

/-- The reads of R57 and R58: a readable register as 4 bytes, or one byte of IN or OUT. -/
def ReadAllowed (off n : Nat) : Prop :=
  (n = 4 ∧ off ∈ readableRegs.map Reg.address) ∨
  (n = 1 ∧ ((∃ i, i < Config.bufCap ∧ off = inBase + i) ∨ ∃ i, i < Config.bufCap ∧ off = outBase + i))

/-- The writes of R57 and R58: a writable register as 4 bytes, or one byte of IN. -/
def WriteAllowed (off n : Nat) : Prop :=
  (n = 4 ∧ off ∈ writableRegs.map Reg.address) ∨ (n = 1 ∧ ∃ i, i < Config.bufCap ∧ off = inBase + i)

/-- The access completes where `allowed` holds, and is a bus error elsewhere (R182). -/
def CompletesExactlyIf (allowed : Prop) (answer : Result) : Prop :=
  (allowed → ∃ t, answer = .next t) ∧ (¬ allowed → ∃ e, answer = .refused (.busError e))

theorem CompletesExactlyIf.of_next {allowed : Prop} {answer : Result} {t : State} (holds : allowed)
    (h : answer = .next t) : CompletesExactlyIf allowed answer :=
  ⟨fun _ => ⟨t, h⟩, fun fails => absurd holds fails⟩

theorem CompletesExactlyIf.of_busError {allowed : Prop} {answer : Result} {e : BusError} (fails : ¬ allowed)
    (h : answer = .refused (.busError e)) : CompletesExactlyIf allowed answer :=
  ⟨fun holds => absurd holds fails, fun _ => ⟨e, h⟩⟩

variable {off n : Nat}

/-- The offset of a register is its place (R51). -/
theorem locate_reg (r : Reg) : locate r.address 4 = .ok (.reg r) := (locate_eq_ok _ _ (.reg r)).2 ⟨rfl, rfl⟩

theorem exists_place_of_reg {regs : List Reg} (h : off ∈ regs.map Reg.address) : ∃ p, locate off 4 = .ok p := by
  obtain ⟨r, _, rfl⟩ := List.mem_map.1 h
  exact ⟨.reg r, locate_reg r⟩

theorem ReadAllowed.exists_place (h : ReadAllowed off n) : ∃ p, locate off n = .ok p := by
  rcases h with ⟨rfl, reg⟩ | ⟨rfl, ⟨i, hi, rfl⟩ | ⟨i, hi, rfl⟩⟩
  · exact exists_place_of_reg reg
  · exact ⟨.inByte i, locate_inByte i hi⟩
  · exact ⟨.outByte i, (locate_eq_ok _ _ (.outByte i)).2 ⟨rfl, rfl, hi⟩⟩

theorem WriteAllowed.exists_place (h : WriteAllowed off n) : ∃ p, locate off n = .ok p := by
  rcases h with ⟨rfl, reg⟩ | ⟨rfl, i, hi, rfl⟩
  · exact exists_place_of_reg reg
  · exact ⟨.inByte i, locate_inByte i hi⟩

/-- All registers but CMD read as a word (R58). -/
theorem readReg_cases (s : State) (r : Reg) :
    (r.address ∈ readableRegs.map Reg.address ∧ ∃ w, readReg s r = some w) ∨
    (r.address ∉ readableRegs.map Reg.address ∧ readReg s r = none) := by
  cases r with
  | cmd => exact .inr ⟨by decide, rfl⟩
  | status | prefixIn | inLen | prefixOut | offset | cksum | outLen | cap => exact .inl ⟨by decide, _, rfl⟩

/-- A write of CMD, PREFIX_IN or IN_LEN completes; the other six are read-only (R58). -/
theorem writeReg_cases (r : Reg) (w : Word) (s : State) :
    (r.address ∈ writableRegs.map Reg.address ∧ ∃ t, writeReg r w s = .next t) ∨
    (r.address ∉ writableRegs.map Reg.address ∧ writeReg r w s = .refused (.busError .readOnly)) := by
  cases r with
  | cmd =>
    obtain ⟨t, run, _⟩ := errorsAreAllOrNothing w s
    exact .inl ⟨by decide, t, run⟩
  | prefixIn | inLen => exact .inl ⟨by decide, _, rfl⟩
  | status | prefixOut | offset | cksum | outLen | cap => exact .inr ⟨by decide, rfl⟩

/-- Where `locate` gives no place the read is a bus error; at a place the right to read it decides (R57, R58, R182). -/
theorem hostRead_completesExactlyIf (s : State) (inside : off < windowSize) :
    CompletesExactlyIf (ReadAllowed off n) (hostRead off n s) := by
  have outside := Nat.not_le.2 inside
  cases place : locate off n with
  | error e =>
    refine .of_busError (e := e) (fun allowed => ?_) (by simp only [hostRead, if_neg outside, place])
    obtain ⟨p, reached⟩ := allowed.exists_place
    cases place.symm.trans reached
  | ok p =>
    cases p with
    | reg r =>
      obtain ⟨rfl, rfl⟩ := (locate_eq_ok _ _ (.reg r)).1 place
      rcases readReg_cases s r with ⟨readable, w, word⟩ | ⟨unreadable, noWord⟩
      · exact .of_next (.inl ⟨rfl, readable⟩) (hostRead_reg s r w word)
      · refine .of_busError (e := .writeOnly) ?_ (by simp only [hostRead, if_neg outside, place, noWord])
        rintro (⟨_, readable⟩ | ⟨width, _⟩)
        · exact unreadable readable
        · cases width
    | inByte i =>
      obtain ⟨rfl, rfl, hi⟩ := (locate_eq_ok _ _ (.inByte i)).1 place
      exact .of_next (.inr ⟨rfl, .inl ⟨i, hi, rfl⟩⟩) (hostRead_inByte s i hi)
    | outByte i =>
      obtain ⟨rfl, rfl, hi⟩ := (locate_eq_ok _ _ (.outByte i)).1 place
      exact .of_next (.inr ⟨rfl, .inr ⟨i, hi, rfl⟩⟩) (hostRead_outByte s i hi)

/-- Where `locate` gives no place the write is a bus error; at a place the right to write it decides (R57, R58, R182). -/
theorem hostWrite_completesExactlyIf {v : Nat} (s : State) (inside : off < windowSize) (fits : v < 2 ^ (8 * n)) :
    CompletesExactlyIf (WriteAllowed off n) (hostWrite off n v s) := by
  have outside := Nat.not_le.2 inside
  have wide := Nat.not_le.2 fits
  cases place : locate off n with
  | error e =>
    refine .of_busError (e := e) (fun allowed => ?_) (by simp only [hostWrite, if_neg outside, if_neg wide, place])
    obtain ⟨p, reached⟩ := allowed.exists_place
    cases place.symm.trans reached
  | ok p =>
    cases p with
    | reg r =>
      have answer : hostWrite off n v s = writeReg r (BitVec.ofNat 32 v) s := by
        simp only [hostWrite, if_neg outside, if_neg wide, place]
      obtain ⟨rfl, rfl⟩ := (locate_eq_ok _ _ (.reg r)).1 place
      rcases writeReg_cases r (BitVec.ofNat 32 v) s with ⟨writable, t, written⟩ | ⟨readOnly, refused⟩
      · exact .of_next (.inl ⟨rfl, writable⟩) (answer.trans written)
      · refine .of_busError ?_ (answer.trans refused)
        rintro (⟨_, writable⟩ | ⟨width, _⟩)
        · exact readOnly writable
        · cases width
    | inByte i =>
      have answer : hostWrite off n v s = .next (s.setIn i (BitVec.ofNat 8 v)) := by
        simp only [hostWrite, if_neg outside, if_neg wide, place]
      obtain ⟨width, address, hi⟩ := (locate_eq_ok _ _ (.inByte i)).1 place
      exact .of_next (.inr ⟨width, i, hi, address⟩) answer
    | outByte i =>
      have answer : hostWrite off n v s = .refused (.busError .readOnly) := by
        simp only [hostWrite, if_neg outside, if_neg wide, place]
      obtain ⟨rfl, rfl, hi⟩ := (locate_eq_ok _ _ (.outByte i)).1 place
      refine .of_busError ?_ answer
      have page : Config.bufCap ≤ 0x1000 := Config.bufCap_le_page
      rintro (⟨width, _⟩ | ⟨_, j, hj, address⟩)
      · cases width
      · rw [outBase_eq, inBase_eq] at address
        omega

end Sys2Proof.Machine
end

section
/-! The obligation on bus errors (spec/60_exceptions.md R182). -/

namespace Sys2Proof.Machine

/-- Settles O37: the accesses the obligation lists are `ReadAllowed` and `WriteAllowed`. -/
theorem busErrorsExactly : Obligations.BusErrorsExactly := by
  intro s off n v inside fits
  obtain ⟨reads, readErrors⟩ := hostRead_completesExactlyIf (n := n) s inside
  obtain ⟨writes, writeErrors⟩ := hostWrite_completesExactlyIf s inside fits
  exact ⟨reads, readErrors, writes, writeErrors⟩

end Sys2Proof.Machine
end

section
/-! The obligations on the reset event and on the commands straight after reset (spec/70_reset_and_hazards.md R200, R201). -/

namespace Sys2Proof.Machine

/-- Every register reads its value of R36 after a reset event: the pieces a reset keeps are read by no register (R200). -/
theorem readReg_platformReset (s : State) (r : Reg) : readReg (platformReset s) r = readReg State.reset r := by
  cases r <;> rfl

/-- Every byte of IN is a fresh free value after a reset event (R66, R200; log entry 7). -/
theorem inByte_platformReset (s : State) (i : Nat) : inByte (platformReset s) i = Config.inDraw (s.resets + 1) i := by
  rw [inByte, platformReset_mem, Memory.read_nil, platformReset_resets]
  rfl

/-- Settles O8: the step is `platformReset` on the state from which the reset event has been taken. -/
theorem resetEventRestores : Obligations.ResetEventRestores := by
  intro s rest pending
  exact ⟨platformReset (s.setInputs rest), step_of_pending pending, readReg_platformReset _, rfl,
    inByte_platformReset _, rfl, rfl⟩

/-- The message of the reset state is empty, for IN_LEN is 0 (R36). -/
theorem message_reset : message State.reset State.reset.inLen.toNat = [] := rfl

/-- With PREFIX_IN = 0 and no payload the frame is the byte 0x00 and its checksum (R151). -/
theorem frameEncode_zero_nil : frameEncode 0 [] = [0x00, ck0Of [0x00], ck1Of [0x00]] := rfl

/-- Settles O9: the case of each command that PREFIX_IN = 0 and IN_LEN = 0 select. -/
theorem commandsAfterReset : Obligations.CommandsAfterReset := by
  have empty (cap : Nat) : State.reset.inLen.toNat ≤ cap := Nat.zero_le cap
  have codable : State.reset.prefixIn.toNat < 16384 := by decide
  refine ⟨?pack, ?ckgen, ?unpack, ?ckchk, ?fdec, ?fenc⟩
  case pack =>
    obtain ⟨t, writes, ended, out, _⟩ := exec_pack_writes State.reset codable
    exact ⟨t, writes, ended.code, out⟩
  case ckgen => exact ⟨_, execCkgen_ok State.reset (empty _), rfl, rfl, rfl⟩
  case unpack => exact ⟨_, execUnpack_short State.reset rfl, rfl⟩
  case ckchk => exact ⟨_, execCkchk_short State.reset (by decide), rfl⟩
  case fdec =>
    have short : frameDecode (message State.reset State.reset.inLen.toNat) = .error .short :=
      frameDecode_short (by rw [message_reset]; decide)
    exact ⟨_, exec_fdec_malformed (empty _) short, rfl⟩
  case fenc =>
    obtain ⟨t, writes, ended, out, _⟩ := exec_fenc_writes codable (empty _)
    rw [message_reset] at out
    exact ⟨t, writes, ended.code, frameEncode_zero_nil ▸ out⟩

end Sys2Proof.Machine
end
